-- ==== Sys2Proof/Word.lean ====
section
/-!
DEFINITION. The word types and the two fixed families of identities the spec numbers state by: links and periodic
engines (spec/00_scope.md R3, R7, R9, R10).
-/

namespace Sys2Proof

/-- One stimulus word (30_encoding.md R102). -/
abbrev Word := BitVec 16

/-- A byte, an unsigned 8-bit value (00_scope.md R9). -/
abbrev Byte := BitVec 8

/-- The links, identities 1, 2, 3 (R3; `NL` = 3 in R7). -/
inductive Link where
  | link1
  | link2
  | link3
deriving DecidableEq, Repr, Inhabited

/-- The periodic engines: A, the heartbeat, and B, the carrier/test (R3, 41_periodic.md R170). -/
inductive Engine where
  | a
  | b
deriving DecidableEq, Repr, Inhabited

/-- One value for each link. -/
structure PerLink (α : Type) where
  link1 : α
  link2 : α
  link3 : α
deriving DecidableEq, Repr, Inhabited

def PerLink.get {α : Type} (p : PerLink α) : Link → α
  | .link1 => p.link1
  | .link2 => p.link2
  | .link3 => p.link3

def PerLink.set {α : Type} (p : PerLink α) (n : Link) (v : α) : PerLink α :=
  match n with
  | .link1 => { p with link1 := v }
  | .link2 => { p with link2 := v }
  | .link3 => { p with link3 := v }

/-- The same value for every link. -/
def PerLink.all {α : Type} (v : α) : PerLink α := ⟨v, v, v⟩

/-- One value for each periodic engine. -/
structure PerEngine (α : Type) where
  a : α
  b : α
deriving DecidableEq, Repr, Inhabited

def PerEngine.get {α : Type} (p : PerEngine α) : Engine → α
  | .a => p.a
  | .b => p.b

def PerEngine.set {α : Type} (p : PerEngine α) (u : Engine) (v : α) : PerEngine α :=
  match u with
  | .a => { p with a := v }
  | .b => { p with b := v }

end Sys2Proof
end

