-- ==== Sys2Proof/Config.lean ====
section
/-!
DEFINITION. The implementation parameters of spec/00_scope.md R7 and the values the spec leaves open.
-/

namespace Sys2Proof

/-- A divisor pair of a periodic engine: the prescale divisor `P` and the per-tick count `T` (R7, R43). -/
structure Divisor where
  p : Nat
  t : Nat
deriving DecidableEq, Repr, Inhabited

/-- The configuration of a built block: the parameters of R7 with the divisor pairs already settled (R43).
It is fixed for the whole life of the block (R8). `LINK_RX_HOLD` and `PIN_MERGE`, the two parameters that are
functions, stand below as constants. -/
structure Config where
  /-- `C`, the accumulator capacity in bytes per link. -/
  capacity : Nat
  /-- `ECHO_NUL_STOP`. -/
  echoNulStop : Bool
  /-- `F`, the platform clock frequency in Hz. -/
  clockHz : Nat
  /-- `R_A`, `R_B`, the target tick rates. -/
  rate : PerEngine Nat
  /-- `PRESCALERS`. -/
  prescalers : List Nat
  /-- `T_MAX`. -/
  tMax : Nat
  /-- `(P_A, T_A)`, `(P_B, T_B)`. -/
  divisor : PerEngine Divisor
  /-- `OUT_INACTIVE_A`, `OUT_INACTIVE_B`. -/
  outInactive : PerEngine Bool
  /-- `TOGGLE_B_LINK`. -/
  toggleBLink : Link
  /-- `STATUS_LINK`. -/
  statusLink : Link
  /-- `BAUD_1..3`. -/
  baud : PerLink Nat
  /-- `BANNER_1..3`. -/
  banner : PerLink (List Byte)
  /-- `HOST_NEWLINE`. -/
  hostNewline : List Byte
deriving DecidableEq, Repr, Inhabited

/-! Open values: no body, so nothing can be proved of them beyond their type. -/

/-- `F` less 1 (`F` is a positive integer, 41_periodic.md R171); OPEN, decision D14. -/
opaque Config.openClockHzPred : Nat
/-- `P_A` less 1 and `T_A` less 1 of the reference configuration (R172: `P >= 1`, `T >= 1`; decision D37). -/
opaque Config.openDivisorAPred : Divisor
/-- `P_B` less 1 and `T_B` less 1 of the reference configuration. -/
opaque Config.openDivisorBPred : Divisor
/-- `OUT_INACTIVE_A`, `OUT_INACTIVE_B`; OPEN, decision D19. -/
opaque Config.openOutInactive : PerEngine Bool
/-- `TOGGLE_B_LINK`; OPEN, decision D20. -/
opaque Config.openToggleBLink : Link
/-- `STATUS_LINK`; OPEN, decision D23. -/
opaque Config.openStatusLink : Link
/-- `BAUD_1..3`; OPEN, decision D29. -/
opaque Config.openBaud : PerLink Nat
/-- `BANNER_1..3`; OPEN, decision D30. -/
opaque Config.openBanner : PerLink (List Byte)
/-- `HOST_NEWLINE`; OPEN, decision D30. -/
opaque Config.openHostNewline : List Byte
/-- `LINK_RX_HOLD` (42_link_host.md R212): does link `n` keep the byte of its `k`-th draw that arrives while engine
`n` is busy? OPEN, decision D8. -/
opaque Config.linkRxHold : Link → Nat → Bool
/-- What link `n` offers for a frame received in error at draw `k`: any byte, or none (42_link_host.md R213). -/
opaque Config.errorFrame : Link → Nat → Option Byte
/-- `PIN_MERGE` (42_link_host.md R218): the line's level from the serial transmitter's level and `T[B].out`. -/
opaque Config.pinMerge : Bool → Bool → Bool

/-- `PRESCALERS` by default: `2^k`, `k = 0..15` (R7, decision D13). -/
def Config.defaultPrescalers : List Nat :=
  [1, 2, 4, 8, 16, 32, 64, 128, 256, 512, 1024, 2048, 4096, 8192, 16384, 32768]

/-- The reference configuration `State.reset` carries: R7's value where R7 gives a default, an open value where it
says OPEN, and divisor pairs given directly (D37). DESIGN CHOICE (log 2). Statements about operations hold for every
configuration, because they hold for every state. -/
def Config.reference : Config where
  capacity := 256
  echoNulStop := true
  clockHz := Config.openClockHzPred + 1
  rate := ⟨1, 1200⟩
  prescalers := Config.defaultPrescalers
  tMax := 65536
  divisor := ⟨⟨Config.openDivisorAPred.p + 1, Config.openDivisorAPred.t + 1⟩,
              ⟨Config.openDivisorBPred.p + 1, Config.openDivisorBPred.t + 1⟩⟩
  outInactive := Config.openOutInactive
  toggleBLink := Config.openToggleBLink
  statusLink := Config.openStatusLink
  baud := Config.openBaud
  banner := Config.openBanner
  hostNewline := Config.openHostNewline

/-- `LW`, the width in bits of `len` and `idx`: `max(1, ceil(log2 C))` (R7). -/
def Config.lengthWidth (c : Config) : Nat :=
  max 1 (if c.capacity ≤ 1 then 0 else (c.capacity - 1).log2 + 1)

end Sys2Proof
end

