-- ==== Sys2Proof/Syntax.lean ====
section
/-!
DEFINITION. The block's operations: one constructor per row of spec/opcode_table.json (30_encoding.md R106, R111).
-/

namespace Sys2Proof

/-- An operation of the block. A row of the table is a stimulus word together with a condition on the state; the
word's free fields are the constructor's operands. -/
inductive Instr where
  /-- RESET: reset the block (70_reset_and_hazards.md R280). -/
  | reset
  /-- RX_TERM: link `n` delivers the line terminator (40_line_echo.md R132). -/
  | rxTerm (n : Link)
  /-- RX_APPEND: link `n` delivers data byte `b` and there is room (R133). -/
  | rxAppend (n : Link) (b : Byte)
  /-- RX_DROP: link `n` delivers data byte `b` and the accumulator is full (R134). -/
  | rxDrop (n : Link) (b : Byte)
  /-- GRANT_DATA: link `n` takes one data byte of the echo (R136). -/
  | grantData (n : Link)
  /-- GRANT_CR: link `n` takes the CR of the suffix (R137). -/
  | grantCr (n : Link)
  /-- GRANT_LF: link `n` takes the LF of the suffix (R138). -/
  | grantLf (n : Link)
  /-- GRANT_IDLE: link `n` has a slot and the engine nothing to send (R139). -/
  | grantIdle (n : Link)
  /-- CLK: one platform clock cycle (41_periodic.md R174). -/
  | clk
  /-- TICK_A: engine A services its pending tick (R176). -/
  | tickA
  /-- TICK_B: engine B services its pending tick (R176). -/
  | tickB
  /-- TICK_NOP: engine `u` is asked to service a tick and none is pending (R177). -/
  | tickNop (u : Engine)
  /-- HOSTTX: the host writes byte `b` to link `n`'s transmitter (42_link_host.md R215). -/
  | hosttx (n : Link) (b : Byte)
deriving DecidableEq, Repr

end Sys2Proof
end

