-- ==== Sys2Proof/WellFormed.lean ====
section
/-!
DEFINITION. Which operations the table's rows admit: the data byte of RX_APPEND and RX_DROP is never the terminator
(spec/opcode_table.json, "byte b != 0x0D"; 40_line_echo.md R133, R134). Links and engines are legal by their types
(30_encoding.md R104).
-/

namespace Sys2Proof

abbrev Instr.WellFormed : Instr → Prop
  | .reset => True
  | .rxTerm _ => True
  | .rxAppend _ b => b ≠ 0x0D
  | .rxDrop _ b => b ≠ 0x0D
  | .grantData _ => True
  | .grantCr _ => True
  | .grantLf _ => True
  | .grantIdle _ => True
  | .clk => True
  | .tickA => True
  | .tickB => True
  | .tickNop _ => True
  | .hosttx _ _ => True

end Sys2Proof
end

