-- ==== Sys2Proof/Decode.lean ====
section
/-!
DEFINITION. The stimulus word of spec/30_encoding.md: its fields, the state-free part of its decoding (R102 to R107),
and the encoder. Which operation a legal RX, GRANT or TICK word selects depends on the state as well (R106); that part
is Sys2Proof/Machine/Select.lean.
-/

namespace Sys2Proof

/-! ## Byte codes (R100) -/

/-- `TERM`, the carriage return. -/
def termByte : Byte := 0x0D
/-- The line feed; its code is the spec's [from general knowledge, not in source] (R100, log 20). -/
def lfByte : Byte := 0x0A
/-- `MARK`, the terminating marker written after a line (decision D5). -/
def markByte : Byte := 0x00

/-! ## Fields (R102) -/

/-- `KIND`, bits 15:12. -/
def wordKind (w : Word) : BitVec 4 := w.extractLsb' 12 4
/-- `UNIT`, bits 11:8. -/
def wordUnit (w : Word) : BitVec 4 := w.extractLsb' 8 4
/-- `DATA`, bits 7:0. -/
def wordData (w : Word) : Byte := w.extractLsb' 0 8

/-- The word with the given fields. -/
def packWord (kind unit : BitVec 4) (data : Byte) : Word := kind ++ unit ++ data

/-- The link a `UNIT` value names, 1..3 (R104). -/
def linkOfUnit : Nat → Option Link
  | 1 => some .link1
  | 2 => some .link2
  | 3 => some .link3
  | _ => none

/-- The periodic engine a `UNIT` value names, 0 = A, 1 = B (R104). -/
def engineOfUnit : Nat → Option Engine
  | 0 => some .a
  | 1 => some .b
  | _ => none

def unitOfLink : Link → BitVec 4
  | .link1 => 1
  | .link2 => 2
  | .link3 => 3

def unitOfEngine : Engine → BitVec 4
  | .a => 0
  | .b => 1

/-! ## Decoding -/

/-- The event a legal word carries (R103). -/
inductive Stimulus where
  | reset
  | rx (n : Link) (b : Byte)
  | grant (n : Link)
  | clk
  | tick (u : Engine)
  | hosttx (n : Link) (b : Byte)
deriving DecidableEq, Repr

/-- Why a word spells no operation (R107). -/
inductive WordRefusal where
  /-- `ReservedKind`: `KIND` 0x6..0xF. -/
  | reservedKind
  /-- `BadUnit`: a `UNIT` R104 does not admit for the kind. -/
  | badUnit
  /-- `BadData`: a nonzero `DATA` where R105 asks for 0x00. -/
  | badData
deriving DecidableEq, Repr

/-- A stimulus whose `DATA` must be 0x00 (R105). -/
def withoutData (data : Byte) (st : Stimulus) : Except WordRefusal Stimulus :=
  if data = 0x00 then .ok st else .error .badData

/-- The tests of R106 in its order: kind, then unit (R104), then data (R105). -/
def decodeFields (kind unit : Nat) (data : Byte) : Except WordRefusal Stimulus :=
  match kind with
  | 0 => if unit = 0 then withoutData data .reset else .error .badUnit
  | 1 =>
    match linkOfUnit unit with
    | some n => .ok (.rx n data)
    | none => .error .badUnit
  | 2 =>
    match linkOfUnit unit with
    | some n => withoutData data (.grant n)
    | none => .error .badUnit
  | 3 => if unit = 0 then withoutData data .clk else .error .badUnit
  | 4 =>
    match engineOfUnit unit with
    | some u => withoutData data (.tick u)
    | none => .error .badUnit
  | 5 =>
    match linkOfUnit unit with
    | some n => .ok (.hosttx n data)
    | none => .error .badUnit
  | _ => .error .reservedKind

/-- The event a word carries, or why it carries none: total on all 65536 words (R106, R107). -/
def decodeWord (w : Word) : Except WordRefusal Stimulus :=
  decodeFields (wordKind w).toNat (wordUnit w).toNat (wordData w)

/-! ## Encoding (R103, R109) -/

/-- The word of an event. -/
def Stimulus.word : Stimulus → Word
  | .reset => packWord 0x0 0x0 0x00
  | .rx n b => packWord 0x1 (unitOfLink n) b
  | .grant n => packWord 0x2 (unitOfLink n) 0x00
  | .clk => packWord 0x3 0x0 0x00
  | .tick u => packWord 0x4 (unitOfEngine u) 0x00
  | .hosttx n b => packWord 0x5 (unitOfLink n) b

/-- The event that selects an operation (the "Encoding" line of each operation's rule). -/
def Instr.stimulus : Instr → Stimulus
  | .reset => .reset
  | .rxTerm n => .rx n termByte
  | .rxAppend n b => .rx n b
  | .rxDrop n b => .rx n b
  | .grantData n => .grant n
  | .grantCr n => .grant n
  | .grantLf n => .grant n
  | .grantIdle n => .grant n
  | .clk => .clk
  | .tickA => .tick .a
  | .tickB => .tick .b
  | .tickNop u => .tick u
  | .hosttx n b => .hosttx n b

/-- The word of an operation. -/
def encode (i : Instr) : Word := i.stimulus.word

/-! ## Reading a word of the opcode table -/

/-- The operation an event selects in the reset state (every engine `IDLE` with `len` 0 and room, no tick pending;
10_state.md R49, 30_encoding.md R106). -/
def Stimulus.fromReset : Stimulus → Instr
  | .reset => .reset
  | .rx n b => if b = termByte then .rxTerm n else .rxAppend n b
  | .grant n => .grantIdle n
  | .clk => .clk
  | .tick u => .tickNop u
  | .hosttx n b => .hosttx n b

/-- The 16-bit stimulus word of the low `nbits` bits of `w`, every bit above them 0. -/
def tableWord (nbits w : Nat) : Word := BitVec.ofNat 16 (w % 2 ^ nbits)

/-- The operation a table word selects as the first word after reset; `none` where the word is refused (log 4). -/
def decodeTableWord (nbits w : Nat) : Option Instr :=
  match decodeWord (tableWord nbits w) with
  | .ok st => some st.fromReset
  | .error _ => none

end Sys2Proof
end

