-- ==== Sys2Proof/Machine/State.lean ====
section
/-!
DEFINITION. The state of the block, of its observations and of its environment (spec/10_state.md), the reasons a step
can stop, and the state after reset (R49).
-/

namespace Sys2Proof.Machine

/-- An accumulator's written bytes as (index, byte) pairs, indices strictly rising; an unlisted index is unwritten
(20_memory.md R70, 10_state.md R35). -/
abbrev Memory := List Host.Cell

/-- `E[n].st` (R32). -/
inductive EchoSt where
  /-- 0, accumulating. -/
  | idle
  /-- 1, a terminator was accepted; data bytes, then the CR, remain to send. -/
  | echoData
  /-- 2, data and CR were sent; the LF remains to send. -/
  | echoLf
  /-- 3, unreachable: an operation on such an engine faults (R38, decision D33). -/
  | unused
deriving DecidableEq, Repr

/-- One echo engine `E[n]` (R32 to R35). -/
structure Echo where
  st : EchoSt
  len : Nat
  idx : Nat
  buf : Memory
deriving DecidableEq, Repr

/-- One periodic engine `T[u]` (R39 to R42). -/
structure Periodic where
  pre : Nat
  cnt : Nat
  pend : Bool
  out : Bool
deriving DecidableEq, Repr

/-- The environment's state that R46 names: it is not state of the block. -/
structure Env where
  /-- Each link's receive holding: bytes received and not yet accepted (42_link_host.md R212). -/
  rxHold : PerLink (List Byte)
  /-- The model's own counter of the link's draws (log 13). -/
  draws : Nat
  powerSource : Bool
  intrusion : Bool
  mirrorPower : Bool
  mirrorIntrusion : Bool
  indicator : Bool
  txEnableAdjacent : Bool
deriving DecidableEq, Repr

/-- Why a step faults. A fault is a model outcome, never a behaviour of the block (60_exceptions.md R242). Each is
SAFE: the model stops where no run of the block arrives. -/
inductive Fault where
  /-- An operation on echo engine `n` with `st` 3, `len >= C` or `idx >= C`, or a GRANT_DATA that would take `idx` to
  `C` (10_state.md R38). Raised by RX and GRANT operations. Safe. -/
  | echoOutOfRange (n : Link)
  /-- An operation on periodic engine `u` with `pre >= P` or `cnt >= T` (R38). Raised by CLK and TICK. Safe. -/
  | periodicOutOfRange (u : Engine)
  /-- A read of a byte of accumulator `n` that nothing has written (R35, decision D18). Raised by GRANT. Safe. -/
  | unwrittenByte (n : Link) (i : Nat)
  /-- An access to an index of accumulator `n` outside `0 .. C-1`, which does not exist (20_memory.md R70). Raised by
  the memory operations; no operation on an engine in range forms such an index (R71). Safe. -/
  | noSuchIndex (n : Link) (i : Nat)
deriving DecidableEq, Repr

/-- Why the model gives a word or an operation no step. -/
inductive Refusal where
  /-- The word spells no operation (30_encoding.md R107). Raised by `step`. Safe: nothing follows. -/
  | illegalWord (r : WordRefusal)
  /-- `RX` on link `n` while its engine is busy: the step does not exist and the word is not consumed
  (40_line_echo.md R130, 60_exceptions.md R242). Raised by `step` and the receive operations. Safe and exact. -/
  | blocked (n : Link)
  /-- `exec` was asked for an operation whose word selects another operation in this state (30_encoding.md R106).
  Raised by `exec` alone; `step` never asks for one. Safe. -/
  | notSelected (i : Instr)
  /-- The operation has no meaning in the model. Raised by no arm of `exec`. Safe. -/
  | notModelled (mnemonic : String)
deriving DecidableEq, Repr

/-- Everything the spec gives the machine, its observations and its environment. -/
structure State where
  /-- The parameters, written by no operation (00_scope.md R8; log 1). -/
  cfg : Config
  /-- `E[1]`, `E[2]`, `E[3]`. -/
  echo : PerLink Echo
  /-- `T[A]`, `T[B]`. -/
  periodic : PerEngine Periodic
  /-- `TXLOG[n]`, oldest byte first (10_state.md R45). -/
  txLog : PerLink (List Byte)
  /-- `HOSTLOG[n]`, oldest byte first (42_link_host.md R215). -/
  hostLog : PerLink (List Byte)
  /-- The sticky havoc mark of each link's wire (42_link_host.md R216). -/
  wireHavoc : PerLink Bool
  /-- The sticky refusal mark: the reason of the first refused word (30_encoding.md R107). -/
  refusalMark : Option WordRefusal
  /-- The sticky fault mark: the first fault (60_exceptions.md R242). -/
  faultMark : Option Fault
  env : Env
  /-- The stimulus words still to come, the next one first (30_encoding.md R103; log 3). -/
  script : List Word
deriving DecidableEq, Repr

/-- `E[n]` after reset (R49). -/
def Echo.atReset : Echo := { st := .idle, len := 0, idx := 0, buf := [] }

/-- `T[u]` after reset, with the engine's inactive output level (R49). -/
def Periodic.atReset (inactive : Bool) : Periodic := { pre := 0, cnt := 0, pend := false, out := inactive }

/-- The environment at the start of a run: DESIGN CHOICE (log 13, log 16). -/
def Env.atStart : Env where
  rxHold := .all []
  draws := 0
  powerSource := false
  intrusion := false
  mirrorPower := false
  mirrorIntrusion := false
  indicator := false
  txEnableAdjacent := false

/-- The machine right after reset with configuration `c`, at the start of a run (R45, R49, R216). -/
def State.resetWith (c : Config) : State where
  cfg := c
  echo := .all Echo.atReset
  periodic := ⟨Periodic.atReset c.outInactive.a, Periodic.atReset c.outInactive.b⟩
  txLog := .all []
  hostLog := .all []
  wireHavoc := ⟨c.toggleBLink = .link1, c.toggleBLink = .link2, c.toggleBLink = .link3⟩
  refusalMark := none
  faultMark := none
  env := Env.atStart
  script := []

/-- The machine right after reset, with the reference configuration (log 2) and no stimulus offered yet (log 3). -/
def State.reset : State := State.resetWith Config.reference

end Sys2Proof.Machine
end

