-- ==== Sys2Proof/Machine/Ops.lean ====
section
/-!
DEFINITION. The named operations over accumulators, engines, logs and marks that the meanings are written from: the
primitives of spec/00_scope.md R10. The block raises no exception (60_exceptions.md R240), so there is no operation
that takes one and none that returns.
-/

namespace Sys2Proof.Machine

/-! ## Accumulator contents -/

/-- The byte at index `i`; `none` where nothing has written it (10_state.md R35). -/
def Memory.read : Memory → Nat → Option Byte
  | [], _ => none
  | (a, b) :: m, i => if i = a then some b else Memory.read m i

/-- Write byte `v` at index `i`, keeping the indices strictly rising. -/
def Memory.write : Memory → Nat → Byte → Memory
  | [], i, v => [(i, v)]
  | (a, b) :: m, i, v =>
    if i < a then (i, v) :: (a, b) :: m
    else if i = a then (i, v) :: m
    else (a, b) :: Memory.write m i v

/-- The canonical form: indices strictly rising. Every listed byte differs from what an unlisted index reads as,
because an unlisted index reads as no byte at all. -/
abbrev Memory.wf (m : Memory) : Prop := (m.map Prod.fst).Pairwise (· < ·)

/-! ## Engines -/

/-- `E[n]`. -/
def State.echoOf (s : State) (n : Link) : Echo := s.echo.get n

/-- `T[u]`. -/
def State.periodicOf (s : State) (u : Engine) : Periodic := s.periodic.get u

def State.setEcho (s : State) (n : Link) (e : Echo) : State := { s with echo := s.echo.set n e }

def State.setPeriodic (s : State) (u : Engine) (p : Periodic) : State :=
  { s with periodic := s.periodic.set u p }

/-! ## Memory access (20_memory.md R70, R71) -/

/-- `MemRead((n, i), 1)`. -/
def State.memRead (s : State) (n : Link) (i : Nat) : Except Fault Byte :=
  if i < s.cfg.capacity then
    match (s.echoOf n).buf.read i with
    | some b => .ok b
    | none => .error (.unwrittenByte n i)
  else .error (.noSuchIndex n i)

/-- `MemWrite((n, i), 1, v)`. -/
def State.memWrite (s : State) (n : Link) (i : Nat) (v : Byte) : Except Fault State :=
  if i < s.cfg.capacity then
    .ok (s.setEcho n { s.echoOf n with buf := (s.echoOf n).buf.write i v })
  else .error (.noSuchIndex n i)

/-! ## The link's byte -/

/-- What a link still holds once the engine has taken byte `b`: the oldest byte held leaves, when it is the one taken.
A byte that no holding explains came and was taken at once (log 13). -/
def takeOffered (b : Byte) : List Byte → List Byte
  | [] => []
  | c :: rest => if c = b then rest else c :: rest

/-- `consume`: link `n`'s offered byte `b` is taken by the engine and leaves the link (00_scope.md R10, 20_memory.md
R75). -/
def State.consume (s : State) (n : Link) (b : Byte) : State :=
  { s with env := { s.env with rxHold := s.env.rxHold.set n (takeOffered b (s.env.rxHold.get n)) } }

/-! ## Logs and marks -/

/-- `emit(n, b)`: deliver byte `b` to link `n`'s transmitter (10_state.md R45). -/
def State.emit (s : State) (n : Link) (b : Byte) : State :=
  { s with txLog := s.txLog.set n (s.txLog.get n ++ [b]) }

/-- The host's byte `b` on link `n`: it joins `HOSTLOG[n]` and from then on the wire is unspecified
(42_link_host.md R215, R216). -/
def State.hostWrite (s : State) (n : Link) (b : Byte) : State :=
  { s with
    hostLog := s.hostLog.set n (s.hostLog.get n ++ [b])
    wireHavoc := s.wireHavoc.set n true }

/-- Set the refusal mark; a mark already set stays (30_encoding.md R107). -/
def State.markRefusal (s : State) (r : WordRefusal) : State :=
  { s with refusalMark := s.refusalMark <|> some r }

/-- Set the fault mark; a mark already set stays (60_exceptions.md R242). -/
def State.markFault (s : State) (f : Fault) : State :=
  { s with faultMark := s.faultMark <|> some f }

/-! ## The script -/

/-- The next stimulus word, and the state in which it is taken from the script. -/
def State.fetch (s : State) : Option (Word × State) :=
  match s.script with
  | [] => none
  | w :: rest => some (w, { s with script := rest })

/-- The environment offers further stimulus words, behind those already offered (log 3). -/
def State.offer (s : State) (ws : List Word) : State := { s with script := s.script ++ ws }

/-- The environment's word `w` comes next, before the words already offered (20_memory.md R79: any interleaving;
log 3). -/
def State.offerNext (s : State) (w : Word) : State := { s with script := w :: s.script }

/-! ## Outcomes -/

/-- The outcome of an effect that may fault. -/
def outcomeOf : Except Fault State → Host.Outcome State Fault Refusal
  | .ok s => .next s
  | .error f => .fault f

end Sys2Proof.Machine
end

