-- ==== Sys2Proof/Machine/Operands.lean ====
section
/-!
DEFINITION. The operands of the operations: the classes of a received byte (30_encoding.md R101) and the divisor pair
of a periodic engine (10_state.md R43). Units and data bytes are fields of the word, decoded in Sys2Proof/Decode.lean.
-/

namespace Sys2Proof.Machine

/-- The class of a received byte (R101). -/
inductive ByteClass where
  | terminator
  | data
deriving DecidableEq, Repr

/-- Only 0x0D is a terminator; LF, NUL and every other byte are data (R101). -/
def classify (b : Byte) : ByteClass := if b = termByte then .terminator else .data

/-- `(P_u, T_u)` (10_state.md R43). -/
def State.divisorOf (s : State) (u : Engine) : Divisor := s.cfg.divisor.get u

/-- `OUT_INACTIVE_u`. -/
def State.outInactiveOf (s : State) (u : Engine) : Bool := s.cfg.outInactive.get u

end Sys2Proof.Machine
end

