-- ==== Sys2Proof/Machine/Flags.lean ====
section
/-!
DEFINITION. The conditions the operations read. The block has no flags register: each is a function of the state
(10_state.md R36), and so are the ranges of R38.
-/

namespace Sys2Proof.Machine

/-- `full(n)` (R36). -/
abbrev State.Full (s : State) (n : Link) : Prop := (s.echoOf n).len = s.cfg.capacity - 1

/-- `busy(n)` (R36). -/
abbrev State.Busy (s : State) (n : Link) : Prop := (s.echoOf n).st ≠ .idle

/-- `rx_ready(n)` (R36). -/
abbrev State.RxReady (s : State) (n : Link) : Prop := (s.echoOf n).st = .idle

/-- `at_end(n)` in both readings of `ECHO_NUL_STOP` (40_line_echo.md R135). -/
def State.atEnd (s : State) (n : Link) : Except Fault Bool :=
  if s.cfg.echoNulStop then
    (s.memRead n (s.echoOf n).idx).map (fun b => b == 0x00)
  else .ok ((s.echoOf n).idx == (s.echoOf n).len)

/-- Echo engine `n` is in the ranges of R32 to R34. -/
abbrev State.EchoInRange (s : State) (n : Link) : Prop :=
  (s.echoOf n).st ≠ .unused ∧ (s.echoOf n).len < s.cfg.capacity ∧ (s.echoOf n).idx < s.cfg.capacity

/-- Periodic engine `u` is in the ranges of R39 and R40. -/
abbrev State.PeriodicInRange (s : State) (u : Engine) : Prop :=
  (s.periodicOf u).pre < (s.divisorOf u).p ∧ (s.periodicOf u).cnt < (s.divisorOf u).t

/-- The next CLK is an expiry of engine `u` (41_periodic.md R174). -/
abbrev State.Expiring (s : State) (u : Engine) : Prop :=
  (s.periodicOf u).pre = (s.divisorOf u).p - 1 ∧ (s.periodicOf u).cnt = (s.divisorOf u).t - 1

end Sys2Proof.Machine
end

