-- ==== Sys2Proof/Machine/Select.lean ====
section
/-!
DEFINITION. Which operation a stimulus selects in a state: the second half of spec/30_encoding.md R106, the state
conditions of spec/opcode_table.json.
-/

namespace Sys2Proof.Machine

/-- What a word is in a state. -/
inductive Selection where
  /-- The word selects the operation. -/
  | op (i : Instr)
  /-- RX on a busy engine: no step exists (40_line_echo.md R130). -/
  | blocked (n : Link)
  /-- The word spells no operation (R107). -/
  | refuse (r : WordRefusal)
  /-- The engine addressed is out of range, or its line holds an unwritten byte (60_exceptions.md R242). -/
  | fault (f : Fault)
deriving DecidableEq, Repr

/-- `RX n, b` (R106, 40_line_echo.md R130, R131): the terminator test comes before the fullness test. -/
def selectRx (s : State) (n : Link) (b : Byte) : Selection :=
  if s.EchoInRange n then
    if s.Busy n then .blocked n
    else
      match classify b with
      | .terminator => .op (.rxTerm n)
      | .data => if (s.echoOf n).len < s.cfg.capacity - 1 then .op (.rxAppend n b) else .op (.rxDrop n b)
  else .fault (.echoOutOfRange n)

/-- `GRANT n` (R106). -/
def selectGrant (s : State) (n : Link) : Selection :=
  if s.EchoInRange n then
    match (s.echoOf n).st with
    | .idle => .op (.grantIdle n)
    | .echoLf => .op (.grantLf n)
    | .echoData =>
      match s.atEnd n with
      | .ok true => .op (.grantCr n)
      | .ok false => .op (.grantData n)
      | .error f => .fault f
    | .unused => .fault (.echoOutOfRange n)
  else .fault (.echoOutOfRange n)

/-- `CLK`: both engines count, so both must be in range (10_state.md R38). -/
def selectClk (s : State) : Selection :=
  if s.PeriodicInRange .a then
    if s.PeriodicInRange .b then .op .clk else .fault (.periodicOutOfRange .b)
  else .fault (.periodicOutOfRange .a)

/-- The service of a pending tick of engine `u` (41_periodic.md R176). -/
def tickInstr : Engine → Instr
  | .a => .tickA
  | .b => .tickB

/-- `TICK u` (R106, 41_periodic.md R176, R177). -/
def selectTick (s : State) (u : Engine) : Selection :=
  if s.PeriodicInRange u then
    if (s.periodicOf u).pend then .op (tickInstr u) else .op (.tickNop u)
  else .fault (.periodicOutOfRange u)

/-- What an event selects in state `s`. -/
def select (st : Stimulus) (s : State) : Selection :=
  match st with
  | .reset => .op .reset
  | .rx n b => selectRx s n b
  | .grant n => selectGrant s n
  | .clk => selectClk s
  | .tick u => selectTick s u
  | .hosttx n b => .op (.hosttx n b)

/-- Decoding of a word in a state, whole (R106). -/
def decodeIn (w : Word) (s : State) : Selection :=
  match decodeWord w with
  | .ok st => select st s
  | .error r => .refuse r

/-- An operation has its effect only in a state where its word selects it; elsewhere the outcome is the word's own,
or a refusal by name (log 9). -/
def whenSelected (i : Instr) (s : State) (effect : Except Fault State) : Host.Outcome State Fault Refusal :=
  match select i.stimulus s with
  | .op j => if j = i then outcomeOf effect else .refused (.notSelected i)
  | .blocked n => .refused (.blocked n)
  | .refuse r => .refused (.illegalWord r)
  | .fault f => .fault f

end Sys2Proof.Machine
end

