-- ==== Sys2Proof/Machine/LineEcho.lean ====
section
/-!
DEFINITION. The meanings of the line echo engine's operations (spec/40_line_echo.md).
-/

namespace Sys2Proof.Machine

/-! ## Effects -/

/-- The MARK goes to index `len`, the echo starts at index 0, `len` stays (R132). -/
def startEcho (s : State) (n : Link) : Except Fault State :=
  (s.memWrite n (s.echoOf n).len markByte).map fun t =>
    t.setEcho n { t.echoOf n with idx := 0, st := .echoData }

/-- The byte goes to index `len` and `len` advances (R133). -/
def appendByte (s : State) (n : Link) (b : Byte) : Except Fault State :=
  (s.memWrite n (s.echoOf n).len b).map fun t =>
    t.setEcho n { t.echoOf n with len := (s.echoOf n).len + 1 }

/-- The byte at `idx` is sent and `idx` advances (R136); an `idx` that would leave its range is a fault (10_state.md
R38, log 8). -/
def sendDataByte (s : State) (n : Link) : Except Fault State :=
  (s.memRead n (s.echoOf n).idx).bind fun b =>
    if (s.echoOf n).idx + 1 < s.cfg.capacity then
      .ok ((s.emit n b).setEcho n { s.echoOf n with idx := (s.echoOf n).idx + 1 })
    else .error (.echoOutOfRange n)

/-- The CR of the suffix is sent (R137). -/
def sendCr (s : State) (n : Link) : State :=
  (s.emit n termByte).setEcho n { s.echoOf n with st := .echoLf }

/-- The LF of the suffix is sent and the line is flushed; the buffer keeps its stale bytes (R138). -/
def sendLf (s : State) (n : Link) : State :=
  (s.emit n lfByte).setEcho n { s.echoOf n with len := 0, idx := 0, st := .idle }

/-! ## Meanings -/

/-- RX_TERM (R132): the terminator is consumed. -/
def execRxTerm (n : Link) (s : State) : Host.Outcome State Fault Refusal :=
  whenSelected (.rxTerm n) s (startEcho (s.consume n termByte) n)

/-- RX_APPEND (R133): the byte is consumed. -/
def execRxAppend (n : Link) (b : Byte) (s : State) : Host.Outcome State Fault Refusal :=
  whenSelected (.rxAppend n b) s (appendByte (s.consume n b) n b)

/-- RX_DROP (R134): the byte is consumed and discarded. -/
def execRxDrop (n : Link) (b : Byte) (s : State) : Host.Outcome State Fault Refusal :=
  whenSelected (.rxDrop n b) s (.ok (s.consume n b))

/-- GRANT_DATA (R136). -/
def execGrantData (n : Link) (s : State) : Host.Outcome State Fault Refusal :=
  whenSelected (.grantData n) s (sendDataByte s n)

/-- GRANT_CR (R137). -/
def execGrantCr (n : Link) (s : State) : Host.Outcome State Fault Refusal :=
  whenSelected (.grantCr n) s (.ok (sendCr s n))

/-- GRANT_LF (R138). -/
def execGrantLf (n : Link) (s : State) : Host.Outcome State Fault Refusal :=
  whenSelected (.grantLf n) s (.ok (sendLf s n))

/-- GRANT_IDLE (R139): the slot is not used. -/
def execGrantIdle (n : Link) (s : State) : Host.Outcome State Fault Refusal :=
  whenSelected (.grantIdle n) s (.ok s)

end Sys2Proof.Machine
end

