-- ==== Sys2Proof/Machine/LinkHost.lean ====
section
/-!
DEFINITION. The meaning of HOSTTX (spec/42_link_host.md R215).
-/

namespace Sys2Proof.Machine

/-- HOSTTX (R215): an observation of what the host sent; no state of the block changes. Its effect on the wire is
the havoc mark of R216. -/
def execHosttx (n : Link) (b : Byte) (s : State) : Host.Outcome State Fault Refusal :=
  whenSelected (.hosttx n b) s (.ok (s.hostWrite n b))

end Sys2Proof.Machine
end

