-- ==== Sys2Proof/Machine/PeriodicSignal.lean ====
section
/-!
DEFINITION. The meanings of the periodic engines' operations (spec/41_periodic.md R174 to R177).
-/

namespace Sys2Proof.Machine

/-! ## Effects -/

/-- One platform clock cycle of an engine with divisor pair `d` (R174); an expiry sets the pending bit, and one
already set absorbs it (R175). -/
def Periodic.clock (d : Divisor) (p : Periodic) : Periodic :=
  if p.pre = d.p - 1 then
    if p.cnt = d.t - 1 then { p with pre := 0, cnt := 0, pend := true }
    else { p with pre := 0, cnt := p.cnt + 1 }
  else { p with pre := p.pre + 1 }

/-- One platform clock cycle of both engines (R174, decision D38). -/
def clockBoth (s : State) : State :=
  (s.setPeriodic .a ((s.periodicOf .a).clock (s.divisorOf .a))).setPeriodic .b
    ((s.periodicOf .b).clock (s.divisorOf .b))

/-- The service of a pending tick of engine `u`: the output inverts and the tick is cleared (R176). -/
def serviceTick (s : State) (u : Engine) : State :=
  s.setPeriodic u { s.periodicOf u with out := !(s.periodicOf u).out, pend := false }

/-! ## Meanings -/

/-- CLK (R174). -/
def execClk (s : State) : Host.Outcome State Fault Refusal :=
  whenSelected .clk s (.ok (clockBoth s))

/-- TICK_A (R176). -/
def execTickA (s : State) : Host.Outcome State Fault Refusal :=
  whenSelected .tickA s (.ok (serviceTick s .a))

/-- TICK_B (R176). -/
def execTickB (s : State) : Host.Outcome State Fault Refusal :=
  whenSelected .tickB s (.ok (serviceTick s .b))

/-- TICK_NOP (R177): nothing is pending and nothing changes. -/
def execTickNop (u : Engine) (s : State) : Host.Outcome State Fault Refusal :=
  whenSelected (.tickNop u) s (.ok s)

end Sys2Proof.Machine
end

