-- ==== Sys2Proof/Machine/Reset.lean ====
section
/-!
DEFINITION. The meaning of RESET (spec/70_reset_and_hazards.md R280, R281).
-/

namespace Sys2Proof.Machine

/-- Every echo engine idle and empty with an unwritten accumulator, every periodic engine at count 0 with nothing
pending and its output at its inactive level; logs and marks are not cleared (R280). An echo in progress and a
pending tick are lost (R281). -/
def resetBlock (s : State) : State :=
  { s with
    echo := .all { st := .idle, len := 0, idx := 0, buf := [] }
    periodic :=
      ⟨{ pre := 0, cnt := 0, pend := false, out := s.outInactiveOf .a },
       { pre := 0, cnt := 0, pend := false, out := s.outInactiveOf .b }⟩ }

/-- RESET (R280). -/
def execReset (s : State) : Host.Outcome State Fault Refusal :=
  whenSelected .reset s (.ok (resetBlock s))

end Sys2Proof.Machine
end

