-- ==== Sys2Proof/Machine/Dispatch.lean ====
section
/-!
DEFINITION. One arm per operation of spec/opcode_table.json.
-/

namespace Sys2Proof.Machine

def exec (i : Instr) (s : State) : Host.Outcome State Fault Refusal :=
  match i with
  | .reset => Sys2Proof.Machine.execReset s
  | .rxTerm n => Sys2Proof.Machine.execRxTerm n s
  | .rxAppend n b => Sys2Proof.Machine.execRxAppend n b s
  | .rxDrop n b => Sys2Proof.Machine.execRxDrop n b s
  | .grantData n => Sys2Proof.Machine.execGrantData n s
  | .grantCr n => Sys2Proof.Machine.execGrantCr n s
  | .grantLf n => Sys2Proof.Machine.execGrantLf n s
  | .grantIdle n => Sys2Proof.Machine.execGrantIdle n s
  | .clk => Sys2Proof.Machine.execClk s
  | .tickA => Sys2Proof.Machine.execTickA s
  | .tickB => Sys2Proof.Machine.execTickB s
  | .tickNop u => Sys2Proof.Machine.execTickNop u s
  | .hosttx n b => Sys2Proof.Machine.execHosttx n b s

end Sys2Proof.Machine
end

