-- ==== Sys2Proof/Machine/Step.lean ====
section
/-!
DEFINITION. One step: the next stimulus word of the script is decoded in the state (30_encoding.md R106) and the
operation it selects is executed. A run of the block is a sequence of stimulus words (R103).
-/

namespace Sys2Proof.Machine

/-- The outcome of one stimulus word. -/
def stepWord (w : Word) (s : State) : Host.Outcome State Fault Refusal :=
  match decodeIn w s with
  | .op i => exec i s
  | .blocked n => .refused (.blocked n)
  | .refuse r => .refused (.illegalWord r)
  | .fault f => .fault f

/-- One step. With no stimulus offered the block waits (log 3). -/
def step (s : State) : Host.Outcome State Fault Refusal :=
  match s.fetch with
  | none => .next s
  | some (w, t) => stepWord w t

/-- `s` with the given table word as its next stimulus: the environment offers it before the rest of the script
(log 4). -/
def State.withFetchWord (s : State) (nbits w : Nat) : State := s.offerNext (tableWord nbits w)

end Sys2Proof.Machine
end

