-- ==== Sys2Proof/Machine/Script.lean ====
section
/-!
DEFINITION. Scripts: the runner with the model outcomes of spec/60_exceptions.md R242, runs in which every word has a
step, and the script lines and pseudo-instructions of spec/30_encoding.md R109, R110.
-/

namespace Sys2Proof.Machine

/-! ## Running -/

/-- How a script ends. -/
inductive RunEnd where
  /-- Every word was taken. -/
  | done (s : State)
  /-- The first word of `rest` has no step in `s`, which is not an illegal word's refusal: BLOCKED (R130, R242). -/
  | stopped (r : Refusal) (s : State) (rest : List Word)
deriving DecidableEq, Repr

/-- The script runner. A refused word leaves the state as it is and sets the refusal mark (30_encoding.md R107); a
fault sets the fault mark and is never final (R242); a blocked word stops the run and is not consumed (R130). -/
def runScript : List Word → State → RunEnd
  | [], s => .done s
  | w :: ws, s =>
    match stepWord w s with
    | .next t => runScript ws t
    | .refused (.illegalWord r) => runScript ws (s.markRefusal r)
    | .refused r => .stopped r s (w :: ws)
    | .fault f => runScript ws (s.markFault f)

/-- The state after a script in which every word has a step; `none` where one has none. -/
def runWords : List Word → State → Option State
  | [], s => some s
  | w :: ws, s =>
    match stepWord w s with
    | .next t => runWords ws t
    | .fault _ => none
    | .refused _ => none

/-! ## Script lines (R109, R110) -/

/-- One line of a script, pseudo-instructions among them. -/
inductive ScriptLine where
  | stimulus (st : Stimulus)
  /-- `RXS n, "text"` -/
  | rxs (n : Link) (text : List Byte)
  /-- `CLK k` -/
  | clks (k : Nat)
  /-- `GRANT n, k` -/
  | grants (n : Link) (k : Nat)
  /-- `DRAIN n` -/
  | drain (n : Link)
  /-- `HOSTTXS n, "text"` -/
  | hosttxs (n : Link) (text : List Byte)
deriving DecidableEq, Repr

/-- `GRANT n`, `k` times. -/
def grantWords (n : Link) (k : Nat) : List Word := List.replicate k (Stimulus.grant n).word

/-- `RX n, b` for each byte, in order. -/
def receiveWords (n : Link) (bs : List Byte) : List Word := bs.map fun b => (Stimulus.rx n b).word

/-- `HOSTTX n, b` for each byte, in order. -/
def hosttxWords (n : Link) (bs : List Byte) : List Word := bs.map fun b => (Stimulus.hosttx n b).word

/-- `CLK`, `k` times. -/
def clockWords (k : Nat) : List Word := List.replicate k Stimulus.clk.word

/-- `GRANT n` repeated while engine `n` is busy, at most `k` times: the words it takes, expanded step by step. A GRANT
that faults, which only an unreachable state allows, leaves the engine busy, so it is repeated up to the bound
(DESIGN CHOICE, log 7); a GRANT is never refused. -/
def drainWords (n : Link) : Nat → State → List Word
  | 0, _ => []
  | k + 1, s =>
    if s.Busy n then
      (Stimulus.grant n).word ::
        (match stepWord (Stimulus.grant n).word s with
        | .next t => drainWords n k t
        | .fault f => drainWords n k (s.markFault f)
        | .refused _ => [])
    else []

/-- The words a line stands for in state `s`. `DRAIN` is the only line whose words depend on the state; it takes at
most `len + 2` grants (R110). -/
def expandLine (l : ScriptLine) (s : State) : List Word :=
  match l with
  | .stimulus st => [st.word]
  | .rxs n text => receiveWords n text
  | .clks k => clockWords k
  | .grants n k => grantWords n k
  | .drain n => drainWords n ((s.echoOf n).len + 2) s
  | .hosttxs n text => hosttxWords n text

/-- Run the lines one by one, expanding each in the state it starts in. -/
def runLines : List ScriptLine → State → RunEnd
  | [], s => .done s
  | l :: ls, s =>
    match runScript (expandLine l s) s with
    | .done t => runLines ls t
    | .stopped r t rest => .stopped r t rest

end Sys2Proof.Machine
end

