-- ==== Sys2Proof/Machine/Assembler.lean ====
section
/-!
DEFINITION. The text of a script line (spec/30_encoding.md R109, R110), read from a list of characters. Where R109
gives no detail (blanks, the width of a number) the reader is the model's own (log 21).
-/

namespace Sys2Proof.Machine

/-- What remains of the line after an item, or no item there. -/
abbrev Parsed (α : Type) := Option (α × List Char)

def skipBlanks (cs : List Char) : List Char := cs.dropWhile (· == ' ')

/-- The digits of the script syntax, each at its value (00_scope.md R9). -/
def digits : List Char :=
  ['0', '1', '2', '3', '4', '5', '6', '7', '8', '9'] ++ ['A', 'B', 'C', 'D', 'E', 'F']

/-- The value of a digit in base `base`. -/
def digitValue (base : Nat) (c : Char) : Option Nat := (digits.take base).idxOf? c

/-- The value of a decimal digit. -/
def decDigit (c : Char) : Option Nat := digitValue 10 c

/-- The value of a hexadecimal digit, a lower-case letter standing for its capital (log 21). -/
def hexDigit (c : Char) : Option Nat := digitValue 16 c.toUpper

/-- The value of decimal digits read so far. -/
def decValue (ds : List Char) : Nat := ds.foldl (fun v c => v * 10 + (decDigit c).getD 0) 0

/-- A plain number is decimal (00_scope.md R9). -/
def parseNumber (cs : List Char) : Parsed Nat :=
  match (skipBlanks cs).span (fun c => (decDigit c).isSome) with
  | ([], _) => none
  | (ds, rest) => some (decValue ds, rest)

def parseComma (cs : List Char) : Option (List Char) :=
  match skipBlanks cs with
  | ',' :: rest => some rest
  | _ => none

/-- A link number 1..3. -/
def parseLink (cs : List Char) : Parsed Link :=
  match parseNumber cs with
  | some (v, rest) => (linkOfUnit v).map fun n => (n, rest)
  | none => none

/-- The ASCII code of a character (R109). -/
def asciiByte (c : Char) : Option Byte := if c.toNat < 128 then some (BitVec.ofNat 8 c.toNat) else none

/-- `0xHH` or a quoted character (R109). -/
def parseByte (cs : List Char) : Parsed Byte :=
  match skipBlanks cs with
  | '0' :: 'x' :: h :: l :: rest =>
    match hexDigit h, hexDigit l with
    | some a, some b => some (BitVec.ofNat 8 (16 * a + b), rest)
    | _, _ => none
  | '\'' :: c :: '\'' :: rest => (asciiByte c).map fun b => (b, rest)
  | _ => none

/-- The rest of a quoted text, with the escapes of R110. -/
def parseTextBody : List Char → Parsed (List Byte)
  | [] => none
  | '"' :: rest => some ([], rest)
  | '\\' :: 'r' :: rest => (parseTextBody rest).map fun (bs, r) => (0x0D :: bs, r)
  | '\\' :: 'n' :: rest => (parseTextBody rest).map fun (bs, r) => (0x0A :: bs, r)
  | '\\' :: '0' :: rest => (parseTextBody rest).map fun (bs, r) => (0x00 :: bs, r)
  | c :: rest =>
    match asciiByte c, parseTextBody rest with
    | some b, some (bs, r) => some (b :: bs, r)
    | _, _ => none

/-- A quoted text (R110). -/
def parseText (cs : List Char) : Parsed (List Byte) :=
  match skipBlanks cs with
  | '"' :: rest => parseTextBody rest
  | _ => none

/-- `n, x` with a link and what `item` reads. -/
def parseLinkAnd {α : Type} (item : List Char → Parsed α) (cs : List Char) : Parsed (Link × α) :=
  match parseLink cs with
  | some (n, rest) =>
    match parseComma rest with
    | some rest' => (item rest').map fun (x, r) => ((n, x), r)
    | none => none
  | none => none

/-- Nothing, or a comment, is left of the line (R109). -/
def atLineEnd (cs : List Char) : Bool :=
  match skipBlanks cs with
  | [] => true
  | ';' :: _ => true
  | _ => false

/-- The engine letter of `TICK`. -/
def parseEngine (cs : List Char) : Parsed Engine :=
  match skipBlanks cs with
  | 'A' :: rest => some (.a, rest)
  | 'B' :: rest => some (.b, rest)
  | _ => none

/-- `CLK` or `CLK k`. -/
def parseClk (cs : List Char) : Parsed ScriptLine :=
  if atLineEnd cs then some (.stimulus .clk, cs) else (parseNumber cs).map fun (k, r) => (.clks k, r)

/-- `GRANT n` or `GRANT n, k`. -/
def parseGrant (cs : List Char) : Parsed ScriptLine :=
  match parseLink cs with
  | some (n, rest) =>
    if atLineEnd rest then some (.stimulus (.grant n), rest)
    else (parseLinkAnd parseNumber cs).map fun (x, r) => (.grants x.1 x.2, r)
  | none => none

/-- The operands of a mnemonic. -/
def parseOperands (mnemonic : List Char) (cs : List Char) : Parsed ScriptLine :=
  if mnemonic = ['R', 'E', 'S', 'E', 'T'] then some (.stimulus .reset, cs)
  else if mnemonic = ['R', 'X'] then (parseLinkAnd parseByte cs).map fun (x, r) => (.stimulus (.rx x.1 x.2), r)
  else if mnemonic = ['G', 'R', 'A', 'N', 'T'] then parseGrant cs
  else if mnemonic = ['C', 'L', 'K'] then parseClk cs
  else if mnemonic = ['T', 'I', 'C', 'K'] then (parseEngine cs).map fun (u, r) => (.stimulus (.tick u), r)
  else if mnemonic = ['H', 'O', 'S', 'T', 'T', 'X'] then
    (parseLinkAnd parseByte cs).map fun (x, r) => (.stimulus (.hosttx x.1 x.2), r)
  else if mnemonic = ['R', 'X', 'S'] then (parseLinkAnd parseText cs).map fun (x, r) => (.rxs x.1 x.2, r)
  else if mnemonic = ['D', 'R', 'A', 'I', 'N'] then (parseLink cs).map fun (n, r) => (.drain n, r)
  else if mnemonic = ['H', 'O', 'S', 'T', 'T', 'X', 'S'] then
    (parseLinkAnd parseText cs).map fun (x, r) => (.hosttxs x.1 x.2, r)
  else none

/-- One line of text: the line it spells, no line where it is empty or a comment, or `none` where it spells none. -/
def parseLine (cs : List Char) : Option (Option ScriptLine) :=
  if atLineEnd cs then some none
  else
    match (skipBlanks cs).span (fun c => decide ('A' ≤ c ∧ c ≤ 'Z')) with
    | (mnemonic, rest) =>
      match parseOperands mnemonic rest with
      | some (l, r) => if atLineEnd r then some (some l) else none
      | none => none

end Sys2Proof.Machine
end

