-- ==== Sys2Proof/Machine/Derive.lean ====
section
/-!
DEFINITION. DERIVE and the building of a block from its configuration (spec/41_periodic.md R171, R172;
spec/70_reset_and_hazards.md R283, R284).
-/

namespace Sys2Proof.Machine

/-- Why a configuration is refused: no block is built (60_exceptions.md R242). R242 names `DeriveFailed` alone; the
other two reasons are the model's names for R284's and R172's other requirements (DESIGN CHOICE, log 23). Safe: no
claim is about such a configuration. -/
inductive ConfigRefusal where
  /-- `C >= 1` fails (R284). -/
  | illegalCapacity
  /-- `DeriveFailed` for engine `u`: no prescaler gives `1 <= T <= T_MAX` (R172). -/
  | deriveFailed (u : Engine)
  /-- The pair given for engine `u` lacks `P >= 1` or `T >= 1` (R172). -/
  | illegalPair (u : Engine)
deriving DecidableEq, Repr

/-- `F / (P*R)` rounded to nearest, halves up (R171). -/
def roundedCount (f r p : Nat) : Nat := (2 * f + p * r) / (2 * p * r)

/-- `DERIVE(F, R)`: the first prescaler of the list whose rounded count is in `1 .. T_MAX`; `none` is
`refuse(DeriveFailed)` (R171, R172). -/
def deriveDivisor (prescalers : List Nat) (tMax f r : Nat) : Option Divisor :=
  match prescalers with
  | [] => none
  | p :: rest =>
    if 1 ≤ roundedCount f r p ∧ roundedCount f r p ≤ tMax then some ⟨p, roundedCount f r p⟩
    else deriveDivisor rest tMax f r

/-- The divisor pair of one engine: the pair given, which must be legal, or DERIVE's (R171, R172, decision D37). -/
def settleDivisor (c : Config) (u : Engine) (given : Option Divisor) : Except ConfigRefusal Divisor :=
  match given with
  | some d => if 1 ≤ d.p ∧ 1 ≤ d.t then .ok d else .error (.illegalPair u)
  | none =>
    match deriveDivisor c.prescalers c.tMax c.clockHz (c.rate.get u) with
    | some d => .ok d
    | none => .error (.deriveFailed u)

/-- The configuration requirements of R284: the built configuration is `c` with its divisor pairs settled. Where several
requirements fail, the reason reported is the capacity's first, then engine A's, then engine B's (DESIGN CHOICE, log
23). -/
def buildConfig (c : Config) (given : PerEngine (Option Divisor)) : Except ConfigRefusal Config :=
  if 1 ≤ c.capacity then
    match settleDivisor c .a given.a, settleDivisor c .b given.b with
    | .ok da, .ok db => .ok { c with divisor := ⟨da, db⟩ }
    | .error e, _ => .error e
    | _, .error e => .error e
  else .error .illegalCapacity

/-- The block at its release, step 5 of the start-up order of R283 (log 17). -/
def buildBlock (c : Config) (given : PerEngine (Option Divisor)) : Except ConfigRefusal State :=
  (buildConfig c given).map State.resetWith

/-- A configuration a block can be built with (R172, R284). -/
abbrev ConfigLegal (c : Config) : Prop :=
  1 ≤ c.capacity ∧ (1 ≤ c.divisor.a.p ∧ 1 ≤ c.divisor.a.t) ∧ (1 ≤ c.divisor.b.p ∧ 1 ≤ c.divisor.b.t)

end Sys2Proof.Machine
end

