-- ==== Sys2Proof/Machine/Environment.lean ====
section
/-!
DEFINITION. The environment's own moves: the links' receive side (spec/42_link_host.md R211 to R213) and the host
software that shares the transmit lines (R222, R223). They act on the environment's state (spec/10_state.md R46) and
choose the next stimulus words; they never touch the block (R219, R221).
-/

namespace Sys2Proof.Machine

/-- A move of the environment. -/
inductive EnvMove where
  /-- Link `n` receives byte `b` in a correct frame (R211, R212). -/
  | receive (n : Link) (b : Byte)
  /-- Link `n` receives a frame in error (R213). -/
  | receiveError (n : Link)
  /-- Link `n` offers its oldest byte to an engine that is ready for one (R211). -/
  | offerByte (n : Link)
  /-- A stimulus other than a received byte comes next: a transmit slot, a clock cycle, a tick's service, a byte the
  host transmits, a reset (R214, R219, R220; 20_memory.md R79). A received byte comes by `receive` and `offerByte`. -/
  | schedule (st : Stimulus)
  /-- The two digital inputs take new levels (10_state.md R46). -/
  | driveInputs (power intrusion : Bool)
  /-- The host drives its two input mirrors to the levels it likes (R219). -/
  | driveMirrors (power intrusion : Bool)
  /-- The host drives the Main Loop's indicator (R219). -/
  | driveIndicator (level : Bool)
  /-- The host drives its transmit-enable-adjacent output (R219). -/
  | driveTxEnable (level : Bool)
  /-- The host calls the Status Reflector (R222). -/
  | statusReflector
  /-- The Main Loop enters its next phase and does what it does between phases (R223). -/
  | mainLoopPhase
deriving DecidableEq, Repr

/-- Link `n` keeps byte `b` behind the bytes it holds already: arrival order (R211). -/
def holdByte (s : State) (n : Link) (b : Byte) : State :=
  { s with env := { s.env with rxHold := s.env.rxHold.set n (s.env.rxHold.get n ++ [b]) } }

/-- The next draw of the link's free values (log 13). -/
def nextDraw (s : State) : State := { s with env := { s.env with draws := s.env.draws + 1 } }

/-- A byte that arrives while the engine is busy is kept or lost as `LINK_RX_HOLD` says (R212). -/
def receiveByte (s : State) (n : Link) (b : Byte) : State :=
  if s.Busy n then
    if Config.linkRxHold n s.env.draws then nextDraw (holdByte s n b) else nextDraw s
  else holdByte s n b

/-- A frame in error is any byte or no byte (R213). -/
def receiveErrorFrame (s : State) (n : Link) : State :=
  match Config.errorFrame n s.env.draws with
  | some b => receiveByte (nextDraw s) n b
  | none => nextDraw s

/-- The word offers a byte of link `n`. -/
def offersByteOf (n : Link) (w : Word) : Bool :=
  match decodeWord w with
  | .ok (.rx m _) => m = n
  | .ok .reset => false
  | .ok (.grant _) => false
  | .ok .clk => false
  | .ok (.tick _) => false
  | .ok (.hosttx _ _) => false
  | .error _ => false

/-- A byte of link `n` is offered and not yet taken. -/
def State.rxOffered (s : State) (n : Link) : Bool := s.script.any (offersByteOf n)

/-- The oldest byte held is offered when the engine is ready for it and no earlier offer of the link is waiting: one at
a time (R211; log 13). The link holds it until the engine takes it (R245). -/
def offerHeldByte (s : State) (n : Link) : State :=
  if s.RxReady n ∧ s.rxOffered n = false then
    match s.env.rxHold.get n with
    | [] => s
    | b :: _ => s.offer [(Stimulus.rx n b).word]
  else s

/-- A stimulus of the environment comes next; a received byte is no such stimulus (R211). -/
def scheduleNext (s : State) (st : Stimulus) : State :=
  match st with
  | .rx _ _ => s
  | .reset => s.offerNext Stimulus.reset.word
  | .grant n => s.offerNext (Stimulus.grant n).word
  | .clk => s.offerNext Stimulus.clk.word
  | .tick u => s.offerNext (Stimulus.tick u).word
  | .hosttx n b => s.offerNext (Stimulus.hosttx n b).word

/-- The words with which the host transmits the bytes on link `n`, in order. -/
def hostWords (n : Link) (bs : List Byte) : List Word := bs.map fun b => (Stimulus.hosttx n b).word

/-- The character `1` or `0` of a level (R222; ASCII, log 20). -/
def levelByte (b : Bool) : Byte := if b then 0x31 else 0x30

/-- `"Batery:<b>  "` then `"Tamper:<b>  "` (R222). -/
def statusTokens (power intrusion : Bool) : List Byte :=
  [0x42, 0x61, 0x74, 0x65, 0x72, 0x79, 0x3A, levelByte power, 0x20, 0x20] ++
  [0x54, 0x61, 0x6D, 0x70, 0x65, 0x72, 0x3A, levelByte intrusion, 0x20, 0x20]

/-- The Status Reflector drives the two mirrors to the inputs' levels (R222). -/
def mirrorInputs (s : State) : State :=
  { s with env := { s.env with mirrorPower := s.env.powerSource, mirrorIntrusion := s.env.intrusion } }

/-- The words one call of the Status Reflector transmits on `STATUS_LINK` (R222). -/
def statusWords (s : State) : List Word :=
  hostWords s.cfg.statusLink (statusTokens s.env.powerSource s.env.intrusion)

/-- The Main Loop's indicator and its transmit-enable-adjacent output change level in lockstep (R223). -/
def nextPhase (s : State) : State :=
  { s with env := { s.env with indicator := !s.env.indicator, txEnableAdjacent := !s.env.indicator } }

/-- One move of the environment (log 13, log 14, log 16). -/
def envStep (m : EnvMove) (s : State) : State :=
  match m with
  | .receive n b => receiveByte s n b
  | .receiveError n => receiveErrorFrame s n
  | .offerByte n => offerHeldByte s n
  | .schedule st => scheduleNext s st
  | .driveInputs power intrusion =>
    { s with env := { s.env with powerSource := power, intrusion := intrusion } }
  | .driveMirrors power intrusion =>
    { s with env := { s.env with mirrorPower := power, mirrorIntrusion := intrusion } }
  | .driveIndicator level => { s with env := { s.env with indicator := level } }
  | .driveTxEnable level => { s with env := { s.env with txEnableAdjacent := level } }
  | .statusReflector => (mirrorInputs s).offer (statusWords s)
  | .mainLoopPhase =>
    (mirrorInputs (nextPhase s)).offer (statusWords s ++ hostWords s.cfg.statusLink s.cfg.hostNewline)

end Sys2Proof.Machine
end

