-- ==== Sys2Proof/Machine/Observe.lean ====
section
/-!
DEFINITION. What is seen of the block from outside: output pins, transmit lines and wires (spec/42_link_host.md R216,
R218; spec/60_exceptions.md R253).
-/

namespace Sys2Proof.Machine

/-- The level engine `u` drives on output pin `OUT_u`, which is `T[u].out` (10_state.md R42). That pin `OUT_B` is this
driven level, and not the merged level of the line it shares with `TOGGLE_B_LINK` (41_periodic.md R181, R218), is the
model's choice (DESIGN CHOICE, log 15): the line's level is `State.lineLevel`. -/
def State.pin (s : State) (u : Engine) : Bool := (s.periodicOf u).out

/-- The level of the transmit line of link `n` while its serial transmitter drives `level`: on `TOGGLE_B_LINK` the
two drivers meet in `PIN_MERGE` (R218). -/
def State.lineLevel (s : State) (n : Link) (level : Bool) : Bool :=
  if n = s.cfg.toggleBLink then Config.pinMerge level (s.pin .b) else level

/-- The wire of link `n` is exact: no HOSTTX on it since release, and engine B does not share it (R216). -/
abbrev State.WireClean (s : State) (n : Link) : Prop := s.wireHavoc.get n = false ∧ n ≠ s.cfg.toggleBLink

/-- A peer on link `n` may have received the sequence `w`: `BANNER_n ++ TXLOG[n]` on a clean wire, any sequence
otherwise (R216, R224; log 12). -/
abbrev State.WireAllows (s : State) (n : Link) (w : List Byte) : Prop :=
  s.WireClean n → w = s.cfg.banner.get n ++ s.txLog.get n

end Sys2Proof.Machine
end

