-- ==== Sys2Proof/Machine/Timing.lean ====
section
/-!
DEFINITION. The informative timing quantities of spec/70_reset_and_hazards.md R293 and spec/41_periodic.md R173, R180,
as exact rationals of the configuration. No rule of the model depends on them (log 19).
-/

namespace Sys2Proof.Machine

/-- The tick rate `F / (P_u * T_u)` in ticks per second (R173). -/
def tickRate (c : Config) (u : Engine) : Rat :=
  (c.clockHz : Rat) / ((c.divisor.get u).p * (c.divisor.get u).t : Nat)

/-- The tick interval of engine `u` in seconds (R293). -/
def tickInterval (c : Config) (u : Engine) : Rat :=
  (((c.divisor.get u).p * (c.divisor.get u).t : Nat) : Rat) / c.clockHz

/-- The period of output `OUT_u` in seconds when every expiry is serviced before the next (R180, R293). -/
def outputPeriod (c : Config) (u : Engine) : Rat := 2 * tickInterval c u

/-- One byte on link `n` in seconds: 10 bit times (R293; the start bit is from general knowledge, log 19). -/
def byteTime (c : Config) (n : Link) : Rat := 10 / (c.baud.get n : Rat)

/-- The least time of an echo of `k` data bytes on link `n` in seconds (R293). -/
def echoMinTime (c : Config) (n : Link) (k : Nat) : Rat := (k + 2 : Nat) * byteTime c n

end Sys2Proof.Machine
end

