-- ==== Sys2Proof/Safety.lean ====
section
/-!
DEFINITION. The terms claims are made in: the invariants of spec/10_state.md R37, the state conditions of
spec/opcode_table.json, clean runs, and fair runs of the environment (spec/60_exceptions.md R257).
-/

namespace Sys2Proof.Machine

/-! ## Invariants -/

/-- The invariants I1 to I5 of echo engine `n` (10_state.md R37), with the canonical form of its accumulator. I4's
history (which step wrote the bytes) is not in it. -/
structure State.EchoInv (s : State) (n : Link) : Prop where
  /-- I1 and R38. -/
  range : s.EchoInRange n
  /-- I2. -/
  idle_idx : (s.echoOf n).st = .idle → (s.echoOf n).idx = 0
  /-- I3. -/
  marker : s.Busy n → (s.echoOf n).buf.read (s.echoOf n).len = some markByte
  /-- I3. -/
  idx_le : s.Busy n → (s.echoOf n).idx ≤ (s.echoOf n).len
  /-- I4. -/
  line : ∀ i < (s.echoOf n).len, ∃ b, (s.echoOf n).buf.read i = some b ∧ b ≠ termByte
  /-- I5. -/
  no_nul : (s.echoOf n).st = .echoData → s.cfg.echoNulStop = true →
    ∀ i < (s.echoOf n).idx, (s.echoOf n).buf.read i ≠ some 0x00
  canonical : (s.echoOf n).buf.wf
  inside : ∀ c ∈ (s.echoOf n).buf, c.1 < s.cfg.capacity

/-- Every engine is in its ranges (10_state.md R38). -/
abbrev State.InRange (s : State) : Prop := (∀ n, s.EchoInRange n) ∧ ∀ u, s.PeriodicInRange u

/-- A wire with no havoc mark has seen no host byte and is not engine B's (42_link_host.md R216). -/
abbrev State.WireInv (s : State) : Prop :=
  ∀ n, s.wireHavoc.get n = false → s.hostLog.get n = [] ∧ n ≠ s.cfg.toggleBLink

/-- The state invariant. -/
structure State.Inv (s : State) : Prop where
  echo : ∀ n, s.EchoInv n
  periodic : ∀ u, s.PeriodicInRange u
  wire : s.WireInv

/-- Every accumulator is in canonical form, inside its address space (20_memory.md R70). -/
abbrev State.MemoryWf (s : State) : Prop :=
  ∀ n, (s.echoOf n).buf.wf ∧ ∀ c ∈ (s.echoOf n).buf, c.1 < s.cfg.capacity

end Sys2Proof.Machine

namespace Sys2Proof

open Machine

/-! ## State conditions of the opcode table -/

/-- The column "condition" of spec/opcode_table.json for an operation. -/
def Instr.Condition (s : State) : Instr → Prop
  | .reset => True
  | .rxTerm n => (s.echoOf n).st = .idle
  | .rxAppend n _ => (s.echoOf n).st = .idle ∧ (s.echoOf n).len < s.cfg.capacity - 1
  | .rxDrop n _ => (s.echoOf n).st = .idle ∧ (s.echoOf n).len = s.cfg.capacity - 1
  | .grantData n => (s.echoOf n).st = .echoData ∧ s.atEnd n = .ok false
  | .grantCr n => (s.echoOf n).st = .echoData ∧ s.atEnd n = .ok true
  | .grantLf n => (s.echoOf n).st = .echoLf
  | .grantIdle n => (s.echoOf n).st = .idle
  | .clk => True
  | .tickA => (s.periodicOf .a).pend = true
  | .tickB => (s.periodicOf .b).pend = true
  | .tickNop u => (s.periodicOf u).pend = false
  | .hosttx _ _ => True

/-- The engines an operation acts on are in their ranges (10_state.md R38); RESET and HOSTTX act in any state. -/
def Instr.EnginesInRange (s : State) : Instr → Prop
  | .reset => True
  | .rxTerm n => s.EchoInRange n
  | .rxAppend n _ => s.EchoInRange n
  | .rxDrop n _ => s.EchoInRange n
  | .grantData n => s.EchoInRange n
  | .grantCr n => s.EchoInRange n
  | .grantLf n => s.EchoInRange n
  | .grantIdle n => s.EchoInRange n
  | .clk => s.PeriodicInRange .a ∧ s.PeriodicInRange .b
  | .tickA => s.PeriodicInRange .a
  | .tickB => s.PeriodicInRange .b
  | .tickNop u => s.PeriodicInRange u
  | .hosttx _ _ => True

end Sys2Proof

namespace Sys2Proof.Machine

/-! ## Legal fields of a word -/

/-- The `UNIT` values R104 admits for a kind. -/
abbrev LegalUnit (kind unit : Nat) : Prop :=
  (kind = 1 ∨ kind = 2 ∨ kind = 5 → 1 ≤ unit ∧ unit ≤ 3) ∧ (kind = 4 → unit ≤ 1) ∧ (kind = 0 ∨ kind = 3 → unit = 0)

/-- The `DATA` values R105 admits for a kind. -/
abbrev LegalData (kind data : Nat) : Prop := kind = 0 ∨ kind = 2 ∨ kind = 3 ∨ kind = 4 → data = 0

/-! ## Runs -/

/-- How many of the words, run from `s`, are services of engine `u` (41_periodic.md R179). -/
def services (u : Engine) : List Word → State → Nat
  | [], _ => 0
  | w :: ws, s =>
    match stepWord w s with
    | .next t => (if decodeIn w s = .op (tickInstr u) then 1 else 0) + services u ws t
    | .fault _ => 0
    | .refused _ => 0

/-- Words that act on echo engine `n`: its own RX and GRANT, and RESET (40_line_echo.md R141). -/
def touchesLink (n : Link) (w : Word) : Bool :=
  match decodeWord w with
  | .ok .reset => true
  | .ok (.rx m _) => m = n
  | .ok (.grant m) => m = n
  | .ok .clk => false
  | .ok (.tick _) => false
  | .ok (.hosttx _ _) => false
  | .error _ => false

/-- The accumulated line of engine `n` is the byte sequence `bytes` (00_scope.md R12). -/
abbrev State.HoldsLine (s : State) (n : Link) (bytes : List Byte) : Prop :=
  (s.echoOf n).len = bytes.length ∧ ∀ i < bytes.length, (s.echoOf n).buf.read i = bytes[i]?

/-- The part of a line the echo sends: with `ECHO_NUL_STOP` the bytes before the first 0x00 (40_line_echo.md R135,
R140). -/
def echoedPart (c : Config) (line : List Byte) : List Byte :=
  if c.echoNulStop then line.takeWhile (· ≠ 0x00) else line

/-- An infinite run: word `k` takes state `k` to state `k + 1` (20_memory.md R72, R79). -/
def IsRun (w : Nat → Word) (σ : Nat → State) : Prop := ∀ k, stepWord (w k) (σ k) = .next (σ (k + 1))

/-- The fairness assumed of the environment (60_exceptions.md R257; log 18). -/
structure FairRun (w : Nat → Word) (σ : Nat → State) : Prop where
  run : IsRun w σ
  /-- A link whose engine stays busy is granted a slot. -/
  grants : ∀ n k, (∀ j ≥ k, (σ j).Busy n) → ∃ j ≥ k, w j = (Stimulus.grant n).word
  /-- The clock never stops. -/
  clocks : ∀ k, ∃ j ≥ k, w j = Stimulus.clk.word
  /-- A pending tick is serviced. -/
  ticks : ∀ u k, ((σ k).periodicOf u).pend = true → ∃ j ≥ k, w j = (Stimulus.tick u).word

/-- The run has seen no refused word and no fault (60_exceptions.md R242). -/
abbrev State.Unmarked (s : State) : Prop := s.refusalMark = none ∧ s.faultMark = none

end Sys2Proof.Machine
end

