-- ==== Sys2Proof/Certificates/Slice0/Obligations.lean ====
section
/-!
DEFINITION. The statements for the provers, each a claim about the block for every configuration, because a state
carries its configuration. "In range" is 10_state.md R38: the spec calls other states unreachable, and no step leaves
the ranges (Obligations.EveryStepKeepsTheRanges).
-/

open Sys2Proof Sys2Proof.Machine

/-! ## Decoding -/

/-- Decode and encode agree: in every state that meets an operation's state condition, the operation's word decodes
to the operation, with every operand. -/
def Obligations.EncodedOperationDecodesToItself : Prop :=
  ∀ (i : Instr) (s : State), i.WellFormed → i.EnginesInRange s → i.Condition s → decodeIn (encode i) s = .op i

/-- A word that decodes to an operation is that operation's word, the operation is well formed and its state condition
holds. -/
def Obligations.DecodedOperationEncodesToItsWord : Prop :=
  ∀ (w : Word) (s : State) (i : Instr), decodeIn w s = .op i → encode i = w ∧ i.WellFormed ∧ i.Condition s

/-- Words of 95_test_vectors.md section 2.1. -/
def Obligations.SampleWordsDecodeAsTabulated : Prop :=
  decodeWord 0x0000 = .ok .reset ∧ decodeWord 0x110D = .ok (.rx .link1 0x0D) ∧
    decodeWord 0x1241 = .ok (.rx .link2 0x41) ∧ decodeWord 0x2300 = .ok (.grant .link3) ∧
    decodeWord 0x3000 = .ok .clk ∧ decodeWord 0x4100 = .ok (.tick .b) ∧
    decodeWord 0x5142 = .ok (.hosttx .link1 0x42) ∧ decodeWord 0x0001 = .error .badData ∧
    decodeWord 0x100D = .error .badUnit ∧ decodeWord 0xF123 = .error .reservedKind

/-- R104, R105 with the order of R106: which words are illegal, and why. -/
def Obligations.IllegalWordsAreThoseOutsideTheLegalFields : Prop :=
  ∀ w : Word,
    (decodeWord w = .error .reservedKind ↔ 6 ≤ w.toNat / 4096) ∧
    (decodeWord w = .error .badUnit ↔
      w.toNat / 4096 < 6 ∧ ¬ LegalUnit (w.toNat / 4096) (w.toNat / 256 % 16)) ∧
    (decodeWord w = .error .badData ↔
      w.toNat / 4096 < 6 ∧ LegalUnit (w.toNat / 4096) (w.toNat / 256 % 16) ∧
        ¬ LegalData (w.toNat / 4096) (w.toNat % 256))

/-- R103: the event a word carries, by its kind, with its unit and its data byte. -/
def Obligations.LegalWordCarriesTheEventOfItsKind : Prop :=
  ∀ (w : Word) (n : Link) (u : Engine) (b : Byte),
    (decodeWord w = .ok .reset ↔ w = 0x0000) ∧
    (decodeWord w = .ok (.rx n b) ↔
      w.toNat / 4096 = 1 ∧ w.toNat / 256 % 16 = (unitOfLink n).toNat ∧ w.toNat % 256 = b.toNat) ∧
    (decodeWord w = .ok (.grant n) ↔
      w.toNat / 4096 = 2 ∧ w.toNat / 256 % 16 = (unitOfLink n).toNat ∧ w.toNat % 256 = 0) ∧
    (decodeWord w = .ok .clk ↔ w = 0x3000) ∧
    (decodeWord w = .ok (.tick u) ↔
      w.toNat / 4096 = 4 ∧ w.toNat / 256 % 16 = (unitOfEngine u).toNat ∧ w.toNat % 256 = 0) ∧
    (decodeWord w = .ok (.hosttx n b) ↔
      w.toNat / 4096 = 5 ∧ w.toNat / 256 % 16 = (unitOfLink n).toNat ∧ w.toNat % 256 = b.toNat)

/-- R107: an illegal word has the outcome refuse(reason), the state is unchanged, and a refusal mark is set which nothing
later in the script clears. That the runner sets the mark and goes on with the words that follow is the model's reading
(log 6). -/
def Obligations.IllegalWordIsRefusedAndMarked : Prop :=
  ∀ (w : Word) (ws : List Word) (s : State),
    (6 ≤ w.toNat / 4096 ∨ ¬ LegalUnit (w.toNat / 4096) (w.toNat / 256 % 16) ∨
      ¬ LegalData (w.toNat / 4096) (w.toNat % 256)) →
    ∃ r, decodeWord w = .error r ∧ decodeIn w s = .refuse r ∧ stepWord w s = .refused (.illegalWord r) ∧
      runScript (w :: ws) s = runScript ws (s.markRefusal r) ∧
      { s.markRefusal r with refusalMark := s.refusalMark } = s ∧
      (∀ t, runScript (w :: ws) s = .done t → t.refusalMark ≠ none) ∧
      ∀ x t rest, runScript (w :: ws) s = .stopped x t rest → t.refusalMark ≠ none

/-- Marks once set are cleared by no script, resets among its words (R107, R242, R280). That a mark also keeps its value,
the first reason or fault, is the model's choice (log 6, log 7). -/
def Obligations.MarksAreNeverCleared : Prop :=
  ∀ (ws : List Word) (s t : State),
    (runScript ws s = .done t ∨ ∃ x rest, runScript ws s = .stopped x t rest) →
    (∀ r, s.refusalMark = some r → t.refusalMark = some r) ∧ ∀ f, s.faultMark = some f → t.faultMark = some f

/-- A step runs the decoded operation: the script's first word is taken, and what it decodes to in that state
happens. The script in the state, and that with an empty one the block waits, are the model's choice (log 3). -/
def Obligations.StepRunsTheDecodedOperation : Prop :=
  ∀ (s : State) (w : Word) (rest : List Word),
    (s.script = w :: rest →
      (∀ i, decodeIn w { s with script := rest } = .op i → step s = exec i { s with script := rest }) ∧
      (∀ n, decodeIn w { s with script := rest } = .blocked n → step s = .refused (.blocked n)) ∧
      (∀ r, decodeIn w { s with script := rest } = .refuse r → step s = .refused (.illegalWord r)) ∧
      ∀ f, decodeIn w { s with script := rest } = .fault f → step s = .fault f) ∧
    (s.script = [] → step s = .next s)

/-- No step asks `exec` for an operation whose state condition fails (log 9). -/
def Obligations.StepNeverRunsAnUnselectedOperation : Prop :=
  ∀ (s : State) (i : Instr), step s ≠ .refused (.notSelected i)

/-! ## Receiving -/

/-- R130: engine `n` accepts a byte exactly when it is idle; while it echoes, RX is blocked, the run stops and the
word is not consumed. -/
def Obligations.BusyEngineBlocksReceive : Prop :=
  ∀ (s : State) (n : Link) (b : Byte) (ws : List Word), s.EchoInRange n →
    (s.Busy n → decodeIn (Stimulus.rx n b).word s = .blocked n ∧
      stepWord (Stimulus.rx n b).word s = .refused (.blocked n) ∧
      runScript ((Stimulus.rx n b).word :: ws) s = .stopped (.blocked n) s ((Stimulus.rx n b).word :: ws)) ∧
    ((s.echoOf n).st = .idle → ∃ t, stepWord (Stimulus.rx n b).word s = .next t)

/-- R131: the terminator is tested first and honoured at every fill length; only another byte meets the fullness
test. -/
def Obligations.TerminatorIsHonouredAtEveryFillLength : Prop :=
  ∀ (s : State) (n : Link) (b : Byte), s.EchoInRange n → (s.echoOf n).st = .idle →
    decodeIn (Stimulus.rx n b).word s =
      if b = 0x0D then .op (.rxTerm n)
      else if (s.echoOf n).len = s.cfg.capacity - 1 then .op (.rxDrop n b)
      else .op (.rxAppend n b)

/-- R132; `consume` takes the byte from the link. -/
def Obligations.RxTermMarksTheLineAndStartsTheEcho : Prop :=
  ∀ (s : State) (n : Link), s.EchoInRange n → (s.echoOf n).st = .idle →
    decodeIn (Stimulus.rx n 0x0D).word s = .op (.rxTerm n) ∧
    exec (.rxTerm n) s = .next ((s.consume n 0x0D).setEcho n
      { st := .echoData
        len := (s.echoOf n).len
        idx := 0
        buf := (s.echoOf n).buf.write (s.echoOf n).len 0x00 })

/-- R133; `consume` takes the byte from the link. -/
def Obligations.RxAppendStoresTheByteAndCountsIt : Prop :=
  ∀ (s : State) (n : Link) (b : Byte), s.EchoInRange n → b ≠ 0x0D → (s.echoOf n).st = .idle →
    (s.echoOf n).len < s.cfg.capacity - 1 →
    decodeIn (Stimulus.rx n b).word s = .op (.rxAppend n b) ∧
    exec (.rxAppend n b) s = .next ((s.consume n b).setEcho n
      { st := .idle
        len := (s.echoOf n).len + 1
        idx := (s.echoOf n).idx
        buf := (s.echoOf n).buf.write (s.echoOf n).len b })

/-- R134; with `C = 1` the engine is always full. The byte is taken from the link, and no state of the block changes. -/
def Obligations.RxDropTakesTheByteAndChangesNothing : Prop :=
  ∀ (s : State) (n : Link) (b : Byte), s.EchoInRange n → b ≠ 0x0D → (s.echoOf n).st = .idle →
    (s.echoOf n).len = s.cfg.capacity - 1 →
    decodeIn (Stimulus.rx n b).word s = .op (.rxDrop n b) ∧ exec (.rxDrop n b) s = .next (s.consume n b) ∧
    s.consume n b = { s with env := (s.consume n b).env }

/-- The frame of the receive operations: of the block only engine `n` changes, and of every accumulator only the byte at
index `len` of engine `n`, which RX_DROP leaves alone too; of the environment only what link `n` holds, from which the
byte taken leaves when it is the oldest held (that a byte not held came and was taken at once: log 13). -/
def Obligations.ReceiveOperationsFrame : Prop :=
  ∀ (n : Link) (b : Byte) (i : Instr) (s t : State),
    i = .rxTerm n ∨ i = .rxAppend n b ∨ i = .rxDrop n b → exec i s = .next t →
    t = { s with echo := t.echo, env := { s.env with rxHold := t.env.rxHold } } ∧
    (∀ m, m ≠ n → t.echoOf m = s.echoOf m ∧ t.env.rxHold.get m = s.env.rxHold.get m) ∧
    (∀ rest, s.env.rxHold.get n = (if i = .rxTerm n then 0x0D else b) :: rest → t.env.rxHold.get n = rest) ∧
    t.env.rxHold.get n = takeOffered (if i = .rxTerm n then 0x0D else b) (s.env.rxHold.get n) ∧
    (∀ a, a ≠ (s.echoOf n).len → (t.echoOf n).buf.read a = (s.echoOf n).buf.read a) ∧
    (i = .rxTerm n → (t.echoOf n).len = (s.echoOf n).len) ∧
    (i = .rxAppend n b → (t.echoOf n).st = (s.echoOf n).st ∧ (t.echoOf n).idx = (s.echoOf n).idx) ∧
    (i = .rxDrop n b → t.echo = s.echo)

/-! ## Echoing -/

/-- R135: the two readings of the end of the data. -/
def Obligations.EndOfDataFollowsTheNulReading : Prop :=
  ∀ (s : State) (n : Link) (b : Byte), (s.echoOf n).idx < s.cfg.capacity →
    (s.cfg.echoNulStop = true → (s.echoOf n).buf.read (s.echoOf n).idx = some b →
      s.atEnd n = .ok (decide (b = 0x00))) ∧
    (s.cfg.echoNulStop = false → s.atEnd n = .ok (decide ((s.echoOf n).idx = (s.echoOf n).len)))

/-- R136, in states that meet the invariants of R37. -/
def Obligations.GrantDataSendsTheNextByteOfTheLine : Prop :=
  ∀ (s : State) (n : Link), s.EchoInv n → (s.echoOf n).st = .echoData → s.atEnd n = .ok false →
    ∃ b, (s.echoOf n).buf.read (s.echoOf n).idx = some b ∧
      decodeIn (Stimulus.grant n).word s = .op (.grantData n) ∧
      exec (.grantData n) s = .next ((s.emit n b).setEcho n
        { st := .echoData
          len := (s.echoOf n).len
          idx := (s.echoOf n).idx + 1
          buf := (s.echoOf n).buf })

/-- R137. -/
def Obligations.GrantCrSendsTheCarriageReturn : Prop :=
  ∀ (s : State) (n : Link), s.EchoInRange n → (s.echoOf n).st = .echoData → s.atEnd n = .ok true →
    decodeIn (Stimulus.grant n).word s = .op (.grantCr n) ∧
    exec (.grantCr n) s = .next ((s.emit n 0x0D).setEcho n
      { st := .echoLf
        len := (s.echoOf n).len
        idx := (s.echoOf n).idx
        buf := (s.echoOf n).buf })

/-- GRANT_LF. The code 0x0A of the line feed is the spec's "[from general knowledge, not in source]" (log 20). -/
def Obligations.GrantLfSendsTheLineFeedAndFlushes : Prop :=
  ∀ (s : State) (n : Link), s.EchoInRange n → (s.echoOf n).st = .echoLf →
    decodeIn (Stimulus.grant n).word s = .op (.grantLf n) ∧
    exec (.grantLf n) s = .next ((s.emit n 0x0A).setEcho n
      { st := .idle
        len := 0
        idx := 0
        buf := (s.echoOf n).buf })

/-- R139. -/
def Obligations.GrantOnAnIdleEngineChangesNothing : Prop :=
  ∀ (s : State) (n : Link), s.EchoInRange n → (s.echoOf n).st = .idle →
    decodeIn (Stimulus.grant n).word s = .op (.grantIdle n) ∧ exec (.grantIdle n) s = .next s

/-- The frame of the transmit operations: only engine `n` and `TXLOG[n]` change, and no byte of any accumulator. -/
def Obligations.TransmitOperationsFrame : Prop :=
  ∀ (n : Link) (i : Instr) (s t : State),
    i = .grantData n ∨ i = .grantCr n ∨ i = .grantLf n ∨ i = .grantIdle n → exec i s = .next t →
    t = { s with echo := t.echo, txLog := t.txLog } ∧
    (∀ m, m ≠ n → t.echoOf m = s.echoOf m ∧ t.txLog.get m = s.txLog.get m) ∧
    (∀ m a, (t.echoOf m).buf.read a = (s.echoOf m).buf.read a) ∧
    (i = .grantData n → (t.echoOf n).st = (s.echoOf n).st ∧ (t.echoOf n).len = (s.echoOf n).len) ∧
    (i = .grantCr n → (t.echoOf n).len = (s.echoOf n).len ∧ (t.echoOf n).idx = (s.echoOf n).idx) ∧
    (i = .grantIdle n → t = s)

/-- `TXLOG[n]` grows only at its end, by one byte, and only by a data, CR or LF grant of link `n`; RESET keeps it
(10_state.md section 4). -/
def Obligations.OnlyEchoGrantsEmit : Prop :=
  ∀ (i : Instr) (s t : State) (n : Link), exec i s = .next t →
    ((i = .grantData n ∨ i = .grantCr n ∨ i = .grantLf n) ∧ ∃ b, t.txLog.get n = s.txLog.get n ++ [b]) ∨
    ((i ≠ .grantData n ∧ i ≠ .grantCr n ∧ i ≠ .grantLf n) ∧ t.txLog.get n = s.txLog.get n)

/-- Only RX_TERM and RX_APPEND of link `n` write accumulator `n`; RESET makes it unwritten (20_memory.md sections 1
and 3). -/
def Obligations.OnlyItsOwnEngineWritesAnAccumulator : Prop :=
  ∀ (i : Instr) (s t : State) (n : Link), exec i s = .next t → (t.echoOf n).buf ≠ (s.echoOf n).buf →
    i = .rxTerm n ∨ (∃ b, i = .rxAppend n b) ∨ (i = .reset ∧ (t.echoOf n).buf = [])

/-- Echo length: after the terminator of a line the echo takes `k + 2` grants, `k` the bytes sent of the line; it
emits them and CR LF and leaves the engine idle and empty; until the last of them the engine is busy. The code 0x0A of
LF is the spec's "[from general knowledge, not in source]" (log 20). -/
def Obligations.EchoTakesTwoGrantsMoreThanItsBytes : Prop :=
  ∀ (s s' : State) (n : Link) (bytes : List Byte), s.EchoInv n → s.HoldsLine n bytes →
    exec (.rxTerm n) s = .next s' →
    (∃ t, runWords (grantWords n ((echoedPart s.cfg bytes).length + 2)) s' = some t ∧
      t.txLog.get n = s.txLog.get n ++ echoedPart s.cfg bytes ++ [0x0D, 0x0A] ∧
      (t.echoOf n).st = .idle ∧ (t.echoOf n).len = 0) ∧
    ∀ j < (echoedPart s.cfg bytes).length + 2, ∃ t, runWords (grantWords n j) s' = some t ∧ t.Busy n

/-- Line echo fidelity: a line of at most `C - 1` bytes comes back whole, then CR LF (LF's code 0x0A: "[from general
knowledge, not in source]", log 20). -/
def Obligations.ShortLineIsEchoedVerbatim : Prop :=
  ∀ (s : State) (n : Link) (bytes : List Byte), s.EchoInv n → (s.echoOf n).st = .idle → (s.echoOf n).len = 0 →
    (0x0D : Byte) ∉ bytes → (s.cfg.echoNulStop = true → (0x00 : Byte) ∉ bytes) →
    bytes.length ≤ s.cfg.capacity - 1 →
    ∃ t, runWords (receiveWords n bytes ++ (Stimulus.rx n 0x0D).word :: grantWords n (bytes.length + 2)) s = some t ∧
      t.txLog.get n = s.txLog.get n ++ bytes ++ [0x0D, 0x0A] ∧ (t.echoOf n).st = .idle ∧ (t.echoOf n).len = 0

/-- Truncation: of a line of `C - 1` bytes or more exactly the first `C - 1` come back, then CR LF (LF's code 0x0A:
"[from general knowledge, not in source]", log 20). -/
def Obligations.LongLineIsEchoedTruncated : Prop :=
  ∀ (s : State) (n : Link) (bytes : List Byte), s.EchoInv n → (s.echoOf n).st = .idle → (s.echoOf n).len = 0 →
    (0x0D : Byte) ∉ bytes → (s.cfg.echoNulStop = true → (0x00 : Byte) ∉ bytes) →
    s.cfg.capacity - 1 ≤ bytes.length →
    ∃ t, runWords (receiveWords n bytes ++ (Stimulus.rx n 0x0D).word :: grantWords n (s.cfg.capacity + 1)) s = some t ∧
      t.txLog.get n = s.txLog.get n ++ bytes.take (s.cfg.capacity - 1) ++ [0x0D, 0x0A] ∧
      (t.echoOf n).st = .idle ∧ (t.echoOf n).len = 0

/-- Without a terminator nothing is emitted, the engine stays idle and `len` rises to `C - 1` and stays there. -/
def Obligations.UnterminatedInputIsNeverFlushed : Prop :=
  ∀ (s : State) (n : Link) (bytes : List Byte), s.EchoInRange n → (s.echoOf n).st = .idle → (0x0D : Byte) ∉ bytes →
    ∃ t, runWords (receiveWords n bytes) s = some t ∧ (t.echoOf n).st = .idle ∧
      (t.echoOf n).len = min ((s.echoOf n).len + bytes.length) (s.cfg.capacity - 1) ∧ t.txLog = s.txLog

/-- Per-link independence: what a script does to `E[n]` and `TXLOG[n]` is what its RX and GRANT words of link `n` and
its resets alone do. -/
def Obligations.LinksAreIndependent : Prop :=
  ∀ (n : Link) (ws : List Word) (s t : State), runWords ws s = some t →
    ∃ t', runWords (ws.filter (touchesLink n)) s = some t' ∧ t'.echoOf n = t.echoOf n ∧
      t'.txLog.get n = t.txLog.get n

/-- An echo completes once its link has been granted enough slots, whatever else happens in between. -/
def Obligations.EnoughGrantsFinishTheEcho : Prop :=
  ∀ (n : Link) (ws : List Word) (s t : State), s.EchoInv n → runWords ws s = some t →
    ((s.echoOf n).len - (s.echoOf n).idx) + 2 ≤ ws.count (Stimulus.grant n).word →
    ∃ j ≤ ws.length, ∃ t', runWords (ws.take j) s = some t' ∧ t'.RxReady n

/-- In a fair run (60_exceptions.md section 6; as a predicate on runs, log 18) every engine is idle again and again: no
echo lasts for ever. -/
def Obligations.FairRunFinishesEveryEcho : Prop :=
  ∀ (n : Link) (w : Nat → Word) (σ : Nat → State) (k : Nat), FairRun w σ → (σ k).EchoInv n →
    ∃ j ≥ k, (σ j).RxReady n

/-- DRAIN: its words number at most `len + 2`, every one has a step, and they leave the engine idle. -/
def Obligations.DrainEmptiesTheEngine : Prop :=
  ∀ (s : State) (n : Link), s.EchoInv n →
    (expandLine (.drain n) s).length ≤ (s.echoOf n).len + 2 ∧
    (∀ w ∈ expandLine (.drain n) s, w = (Stimulus.grant n).word) ∧
    ∃ t, runWords (expandLine (.drain n) s) s = some t ∧ t.RxReady n

/-! ## Periodic engines -/

/-- R174: one clock cycle of both engines. -/
def Obligations.ClockCycleAdvancesBothEngines : Prop :=
  ∀ s : State, s.PeriodicInRange .a → s.PeriodicInRange .b →
    decodeIn 0x3000 s = .op .clk ∧
    ∃ t, exec .clk s = .next t ∧ t = { s with periodic := t.periodic } ∧
      ∀ u, t.periodicOf u =
        if (s.periodicOf u).pre = (s.divisorOf u).p - 1 then
          if (s.periodicOf u).cnt = (s.divisorOf u).t - 1 then
            { pre := 0, cnt := 0, pend := true, out := (s.periodicOf u).out }
          else
            { pre := 0, cnt := (s.periodicOf u).cnt + 1, pend := (s.periodicOf u).pend, out := (s.periodicOf u).out }
        else
          { pre := (s.periodicOf u).pre + 1, cnt := (s.periodicOf u).cnt, pend := (s.periodicOf u).pend,
            out := (s.periodicOf u).out }

/-- R175: an expiry sets the pending bit; one that finds it set is absorbed, so that a single service follows and a
second TICK finds nothing. -/
def Obligations.ExpiryIsAbsorbedByAPendingTick : Prop :=
  ∀ (s : State) (u : Engine), s.PeriodicInRange .a → s.PeriodicInRange .b → s.Expiring u →
    ∃ t₁ t₂, exec .clk s = .next t₁ ∧ (t₁.periodicOf u).pend = true ∧
      exec (tickInstr u) t₁ = .next t₂ ∧ (t₂.periodicOf u).out = !(s.periodicOf u).out ∧
      (t₂.periodicOf u).pend = false ∧ decodeIn (Stimulus.tick u).word t₂ = .op (.tickNop u)

/-- R176, both engines. -/
def Obligations.TickServiceInvertsTheOutput : Prop :=
  ∀ s : State,
    (s.PeriodicInRange .a → (s.periodicOf .a).pend = true →
      decodeIn 0x4000 s = .op .tickA ∧
      exec .tickA s = .next (s.setPeriodic .a
        { pre := (s.periodicOf .a).pre, cnt := (s.periodicOf .a).cnt, pend := false,
          out := !(s.periodicOf .a).out })) ∧
    (s.PeriodicInRange .b → (s.periodicOf .b).pend = true →
      decodeIn 0x4100 s = .op .tickB ∧
      exec .tickB s = .next (s.setPeriodic .b
        { pre := (s.periodicOf .b).pre, cnt := (s.periodicOf .b).cnt, pend := false,
          out := !(s.periodicOf .b).out }))

/-- R177. -/
def Obligations.TickWithNothingPendingChangesNothing : Prop :=
  ∀ (s : State) (u : Engine), s.PeriodicInRange u → (s.periodicOf u).pend = false →
    decodeIn (Stimulus.tick u).word s = .op (.tickNop u) ∧ exec (.tickNop u) s = .next s

/-- The frame of the periodic operations: echo engines, accumulators and logs are untouched; CLK keeps the outputs; a
tick service touches its own engine's output and pending bit alone. -/
def Obligations.PeriodicOperationsFrame : Prop :=
  ∀ (i : Instr) (s t : State), i = .clk ∨ i = .tickA ∨ i = .tickB ∨ (∃ u, i = .tickNop u) → exec i s = .next t →
    t = { s with periodic := t.periodic } ∧
    (∀ n a, (t.echoOf n).buf.read a = (s.echoOf n).buf.read a) ∧
    (i = .clk → ∀ u, (t.periodicOf u).out = (s.periodicOf u).out) ∧
    (i = .tickA → t.periodicOf .b = s.periodicOf .b) ∧
    (i = .tickB → t.periodicOf .a = s.periodicOf .a) ∧
    (i ≠ .clk → ∀ u, (t.periodicOf u).pre = (s.periodicOf u).pre ∧ (t.periodicOf u).cnt = (s.periodicOf u).cnt) ∧
    ((∃ u, i = .tickNop u) → t = s)

/-- An output changes only by a service of its own engine or by RESET (10_state.md section 3). -/
def Obligations.OutputChangesOnlyByServiceOrReset : Prop :=
  ∀ (i : Instr) (s t : State) (u : Engine), exec i s = .next t → (t.periodicOf u).out ≠ (s.periodicOf u).out →
    (i = tickInstr u ∧ (s.periodicOf u).pend = true) ∨ (i = .reset ∧ (t.periodicOf u).out = s.outInactiveOf u)

/-- Timing of expiries: `k` clock cycles after RESET the counters stand at `k mod P*T`, the next cycle is an expiry
exactly when its number is a multiple of `P*T`, and a first expiry has left its tick pending. -/
def Obligations.ExpiriesComeEveryPTimesTClocks : Prop :=
  ∀ (s : State) (k : Nat), ConfigLegal s.cfg →
    ∃ t, runWords (Stimulus.reset.word :: clockWords k) s = some t ∧
      ∀ u, (t.periodicOf u).pre + (t.divisorOf u).p * (t.periodicOf u).cnt = k % ((s.divisorOf u).p * (s.divisorOf u).t) ∧
        (t.Expiring u ↔ (s.divisorOf u).p * (s.divisorOf u).t ∣ k + 1) ∧
        (t.periodicOf u).pend = decide ((s.divisorOf u).p * (s.divisorOf u).t ≤ k)

/-- Toggle parity: after `m` services since the last RESET the output is its inactive level, inverted when `m` is
odd. -/
def Obligations.OutputFollowsTheParityOfServices : Prop :=
  ∀ (s s' t : State) (u : Engine) (ws : List Word), exec .reset s = .next s' → Stimulus.reset.word ∉ ws →
    runWords ws s' = some t →
    (t.periodicOf u).out = xor (s.outInactiveOf u) (decide (services u ws s' % 2 = 1))

/-- R171: DERIVE answers the first prescaler whose count, `F/(P*R)` rounded to nearest with halves up, fits. -/
def Obligations.DeriveTakesTheFirstFittingPrescaler : Prop :=
  ∀ (prescalers : List Nat) (tMax f r : Nat) (d : Divisor),
    deriveDivisor prescalers tMax f r = some d ↔
      ∃ before after, prescalers = before ++ d.p :: after ∧ d.t = (2 * f + d.p * r) / (2 * d.p * r) ∧
        1 ≤ d.t ∧ d.t ≤ tMax ∧
        ∀ p ∈ before, ¬ (1 ≤ (2 * f + p * r) / (2 * p * r) ∧ (2 * f + p * r) / (2 * p * r) ≤ tMax)

/-- R172: DERIVE fails exactly when no prescaler fits; then, or when a given pair has `P` or `T` 0, the configuration
is refused and no block is built. -/
def Obligations.ConfigurationWithoutDivisorsIsRefused : Prop :=
  ∀ (c : Config) (given : PerEngine (Option Divisor)),
    (∀ f r, deriveDivisor c.prescalers c.tMax f r = none ↔
      ∀ p ∈ c.prescalers, ¬ (1 ≤ (2 * f + p * r) / (2 * p * r) ∧ (2 * f + p * r) / (2 * p * r) ≤ c.tMax)) ∧
    ∀ u, ((given.get u = none ∧ deriveDivisor c.prescalers c.tMax c.clockHz (c.rate.get u) = none) ∨
        (∃ d, given.get u = some d ∧ (d.p = 0 ∨ d.t = 0))) →
      ∃ e, buildBlock c given = .error e

/-- A block is built exactly when `C >= 1` and each engine has a legal given pair, or none given and one from DERIVE
(which requirements of R284 are checked: log 23); it is then in its reset state (the release as the one starting point:
log 17), with a legal configuration that differs from the one asked for in its divisor pairs at most. -/
def Obligations.BuiltBlockIsLegalAndReset : Prop :=
  ∀ (c : Config) (given : PerEngine (Option Divisor)),
  (1 ≤ c.capacity →
    (∀ u, (∃ d, given.get u = some d ∧ 1 ≤ d.p ∧ 1 ≤ d.t) ∨
      (given.get u = none ∧ ∃ d, deriveDivisor c.prescalers c.tMax c.clockHz (c.rate.get u) = some d)) →
    ∃ s, buildBlock c given = .ok s) ∧
  ∀ s : State, buildBlock c given = .ok s →
    s = State.resetWith s.cfg ∧ s.cfg = { c with divisor := s.cfg.divisor } ∧ 1 ≤ s.cfg.capacity ∧
    ∀ u, (∀ d, given.get u = some d → s.divisorOf u = d ∧ 1 ≤ d.p ∧ 1 ≤ d.t) ∧
      (given.get u = none →
        deriveDivisor c.prescalers c.tMax c.clockHz (c.rate.get u) = some (s.divisorOf u) ∧
          1 ≤ (s.divisorOf u).p ∧ 1 ≤ (s.divisorOf u).t)

/-- Accuracy of DERIVE: `F` is within half of `P*R` of `P*T*R`, so the tick rate is within `R/(2*T)` of `R`. -/
def Obligations.DerivedRateIsWithinHalfAStep : Prop :=
  ∀ (prescalers : List Nat) (tMax f r : Nat) (d : Divisor), deriveDivisor prescalers tMax f r = some d →
    2 * |(f : Int) - d.p * d.t * r| ≤ d.p * r ∧
    |(f : Rat) / (d.p * d.t) - r| ≤ r / (2 * d.t)

/-! ## Links and host -/

/-- R215. -/
def Obligations.HostByteIsLoggedAndTouchesNoEngine : Prop :=
  ∀ (s : State) (n : Link) (b : Byte),
    decodeIn (Stimulus.hosttx n b).word s = .op (.hosttx n b) ∧
    exec (.hosttx n b) s = .next
      { s with
        hostLog := s.hostLog.set n (s.hostLog.get n ++ [b])
        wireHavoc := s.wireHavoc.set n true }

/-- R216: from the block's release, the wire of a link that engine B does not share and the host never wrote carries
exactly its banner and `TXLOG`; every other wire may carry any sequence. The wire as a predicate is the model's choice
(log 12). -/
def Obligations.WireIsExactOnlyInACleanRun : Prop :=
  ∀ (c : Config) (ws : List Word) (t : State) (n : Link), runWords ws (State.resetWith c) = some t →
    (n ≠ c.toggleBLink → (∀ b, (Stimulus.hosttx n b).word ∉ ws) →
      ∀ bytes, t.WireAllows n bytes ↔ bytes = c.banner.get n ++ t.txLog.get n) ∧
    (n = c.toggleBLink ∨ (∃ b, (Stimulus.hosttx n b).word ∈ ws) → ∀ bytes, t.WireAllows n bytes)

/-- R219: what the host and the links do never changes the block: not by HOSTTX, and not by any move of the
environment. -/
def Obligations.EnvironmentNeverChangesTheBlock : Prop :=
  (∀ (m : EnvMove) (s : State), envStep m s = { s with env := (envStep m s).env, script := (envStep m s).script }) ∧
  ∀ (n : Link) (b : Byte) (s t : State), exec (.hosttx n b) s = .next t →
    t.echo = s.echo ∧ t.periodic = s.periodic ∧ t.txLog = s.txLog ∧ t.cfg = s.cfg

/-- A byte that arrives is held behind the bytes held before it, or lost while its engine is busy (that none is lost at
an idle engine: log 13). Bytes are offered one at a time, the oldest first, to a ready engine; the offer comes behind the
words already offered (log 3). The link holds a byte until the engine takes it (42_link_host.md section 1,
60_exceptions.md section 2). -/
def Obligations.LinkKeepsArrivalOrder : Prop :=
  ∀ (s : State) (n : Link) (b : Byte),
    ((s.echoOf n).st = .idle →
      (envStep (.receive n b) s).env.rxHold.get n = s.env.rxHold.get n ++ [b]) ∧
    (s.Busy n → (envStep (.receive n b) s).env.rxHold.get n = s.env.rxHold.get n ++ [b] ∨
      (envStep (.receive n b) s).env.rxHold.get n = s.env.rxHold.get n) ∧
    (∀ m, m ≠ n → (envStep (.receive n b) s).env.rxHold.get m = s.env.rxHold.get m) ∧
    (envStep (.offerByte n) s).env = s.env ∧
    ((envStep (.offerByte n) s).script ≠ s.script → s.RxReady n ∧ ∀ c, (Stimulus.rx n c).word ∉ s.script) ∧
    ∀ rest, s.env.rxHold.get n = b :: rest →
      (s.RxReady n → (∀ c, (Stimulus.rx n c).word ∉ s.script) →
        (envStep (.offerByte n) s).script = s.script ++ [(Stimulus.rx n b).word]) ∧
      (s.Busy n → ∀ t, stepWord (Stimulus.rx n b).word s ≠ .next t) ∧
      ∀ t, stepWord (Stimulus.rx n b).word s = .next t → t.env.rxHold.get n = rest

/-- The Status Reflector drives its mirrors to the inputs and transmits its two tokens on `STATUS_LINK`: run from a
state with nothing else offered, they are appended to `HOSTLOG` there. The character codes are ASCII "[from general
knowledge, not in source]" (log 20); that its words come together, behind the words already offered, is
the model's choice (log 16). -/
def Obligations.StatusReflectorReportsItsInputs : Prop :=
  ∀ s : State, s.script = [] →
    (envStep .statusReflector s).env.mirrorPower = s.env.powerSource ∧
    (envStep .statusReflector s).env.mirrorIntrusion = s.env.intrusion ∧
    ∃ t, runWords (envStep .statusReflector s).script s = some t ∧
      t.hostLog.get s.cfg.statusLink =
        s.hostLog.get s.cfg.statusLink ++ statusTokens s.env.powerSource s.env.intrusion ∧
      t.echo = s.echo ∧ t.periodic = s.periodic

/-! ## Reset -/

/-- R280: RESET, in any state, gives every engine its reset values; the observations, the marks and everything else
stay. -/
def Obligations.ResetGivesEveryEngineItsResetValues : Prop :=
  ∀ s : State, decodeIn 0x0000 s = .op .reset ∧
    ∃ t, exec .reset s = .next t ∧ t = { s with echo := t.echo, periodic := t.periodic } ∧
      (∀ n, (t.echoOf n).st = .idle ∧ (t.echoOf n).len = 0 ∧ (t.echoOf n).idx = 0 ∧
        ∀ a, (t.echoOf n).buf.read a = none) ∧
      ∀ u, (t.periodicOf u).pre = 0 ∧ (t.periodicOf u).cnt = 0 ∧ (t.periodicOf u).pend = false ∧
        (t.periodicOf u).out = s.cfg.outInactive.get u

/-- R49: the state after reset. -/
def Obligations.ResetStateHoldsTheResetValues : Prop :=
  (∀ n, (State.reset.echoOf n).st = .idle ∧ (State.reset.echoOf n).len = 0 ∧ (State.reset.echoOf n).idx = 0 ∧
    ∀ a, (State.reset.echoOf n).buf.read a = none) ∧
  ∀ u, (State.reset.periodicOf u).pre = 0 ∧ (State.reset.periodicOf u).cnt = 0 ∧
    (State.reset.periodicOf u).pend = false ∧
    (State.reset.periodicOf u).out = State.reset.cfg.outInactive.get u

/-- A reset during an echo keeps what was emitted, in `TXLOG` and on the wire, loses the line and sends nothing more of
it; a reset before a service loses the tick. The wire as a predicate, with a havoc mark that RESET keeps, is the model's
choice (log 12). -/
def Obligations.ResetAbandonsEchoAndPendingTick : Prop :=
  ∀ (s t : State), ConfigLegal s.cfg → exec .reset s = .next t →
    t.txLog = s.txLog ∧
    (∀ n bytes, t.WireAllows n bytes ↔ s.WireAllows n bytes) ∧
    (∀ n, (t.echoOf n).len = 0 ∧ ∀ a, (t.echoOf n).buf.read a = none) ∧
    (∀ n k, runWords (grantWords n k) t = some t) ∧
    ∀ u, runWords [(Stimulus.tick u).word] t = some t

/-! ## Whole machine -/

/-- Every step keeps the invariants of R37, the ranges of R38, the canonical form of memory and the truth of the havoc
marks. -/
def Obligations.EveryStepKeepsTheInvariant : Prop :=
  ∀ s t : State, s.Inv → step s = .next t → t.Inv

/-- The state after reset meets the invariant. What the spec leaves to the model in it: `HOSTLOG` starts empty (log 11),
the havoc marks start as the wires are (log 12), and the reference configuration has `C` 256 and legal pairs (log 2). -/
def Obligations.ResetStateMeetsTheInvariant : Prop := State.reset.Inv

/-- From a state that meets the invariant no step faults: no unwritten byte is read, no index outside the accumulator
is formed and no range is left (the four faults: log 7, log 8, log 10). -/
def Obligations.InvariantStateNeverFaults : Prop :=
  ∀ (s : State) (f : Fault), s.Inv → step s ≠ .fault f

/-- No step leaves the ranges of R32 to R34 and R39 to R42. -/
def Obligations.EveryStepKeepsTheRanges : Prop :=
  ∀ s t : State, s.InRange → step s = .next t → t.InRange

/-- Every step keeps every accumulator in canonical form inside its address space. -/
def Obligations.EveryStepKeepsMemoryCanonical : Prop :=
  ∀ s t : State, s.MemoryWf → step s = .next t → t.MemoryWf

/-- R8: no step and no move of the environment changes the configuration. -/
def Obligations.ConfigurationIsFixedForLife : Prop :=
  (∀ s t : State, step s = .next t → t.cfg = s.cfg) ∧ ∀ (m : EnvMove) (s : State), (envStep m s).cfg = s.cfg

/-- No operation touches the marks, the configuration or the rest of the script, and of the environment none touches
anything but a link's holding, which only the RX operations of that link do. -/
def Obligations.OperationsLeaveTheirSurroundingsAlone : Prop :=
  ∀ (i : Instr) (s t : State), exec i s = .next t →
    t.cfg = s.cfg ∧ t.refusalMark = s.refusalMark ∧ t.faultMark = s.faultMark ∧ t.script = s.script ∧
    t.env = { s.env with rxHold := t.env.rxHold } ∧
    ∀ n, t.env.rxHold.get n ≠ s.env.rxHold.get n →
      i = .rxTerm n ∨ ∃ b, i = .rxAppend n b ∨ i = .rxDrop n b

/-- An operation on an engine out of its ranges faults by name; RESET and HOSTTX act in any state (60_exceptions.md
section 1). That the range test comes before the other tests is the model's choice (log 7). -/
def Obligations.OutOfRangeEngineFaults : Prop :=
  ∀ (s : State) (n : Link) (b : Byte) (u : Engine),
    (¬ s.EchoInRange n →
      stepWord (Stimulus.rx n b).word s = .fault (.echoOutOfRange n) ∧
      stepWord (Stimulus.grant n).word s = .fault (.echoOutOfRange n)) ∧
    (¬ s.PeriodicInRange u →
      stepWord (Stimulus.tick u).word s = .fault (.periodicOutOfRange u) ∧
      ∃ v, ¬ s.PeriodicInRange v ∧ stepWord Stimulus.clk.word s = .fault (.periodicOutOfRange v))

/-- `LW` is `max(1, ceil(log2 C))`, and a length or an index in range fits it, 8 bits for the default capacity. -/
def Obligations.LengthsFitTheirWidth : Prop :=
  ∀ (s : State) (n : Link), s.EchoInRange n →
    s.cfg.lengthWidth = max 1 (Nat.clog 2 s.cfg.capacity) ∧
    (s.echoOf n).len < 2 ^ s.cfg.lengthWidth ∧ (s.echoOf n).idx < 2 ^ s.cfg.lengthWidth ∧
    (s.cfg.capacity = 256 → s.cfg.lengthWidth = 8)
end

