-- ==== Sys2Proof/Laws/Decode.lean ====
section
/-!
SUPPORT. The fields of a packed word, and a word from its fields (30_encoding.md R102).
-/

namespace Sys2Proof

theorem packWord_toNat (k u : BitVec 4) (d : Byte) :
    (packWord k u d).toNat = k.toNat * 4096 + u.toNat * 256 + d.toNat := by
  have hu := u.isLt
  have hd := d.isLt
  simp only [packWord, BitVec.toNat_append]
  rw [← Nat.shiftLeft_add_eq_or_of_lt (by omega), ← Nat.shiftLeft_add_eq_or_of_lt (by omega),
    Nat.shiftLeft_eq, Nat.shiftLeft_eq]
  omega

theorem wordKind_toNat (w : Word) : (wordKind w).toNat = w.toNat / 4096 := by
  have hw := w.isLt
  simp only [wordKind, BitVec.extractLsb'_toNat, Nat.shiftRight_eq_div_pow]
  omega

theorem wordUnit_toNat (w : Word) : (wordUnit w).toNat = w.toNat / 256 % 16 := by
  simp only [wordUnit, BitVec.extractLsb'_toNat, Nat.shiftRight_eq_div_pow]

theorem wordData_toNat (w : Word) : (wordData w).toNat = w.toNat % 256 := by
  simp only [wordData, BitVec.extractLsb'_toNat, Nat.shiftRight_eq_div_pow]
  rw [Nat.pow_zero, Nat.div_one]

@[simp] theorem wordKind_packWord (k u : BitVec 4) (d : Byte) : wordKind (packWord k u d) = k := by
  apply BitVec.eq_of_toNat_eq
  have hu := u.isLt
  have hd := d.isLt
  rw [wordKind_toNat, packWord_toNat]
  omega

@[simp] theorem wordUnit_packWord (k u : BitVec 4) (d : Byte) : wordUnit (packWord k u d) = u := by
  apply BitVec.eq_of_toNat_eq
  have hu := u.isLt
  have hd := d.isLt
  rw [wordUnit_toNat, packWord_toNat]
  omega

@[simp] theorem wordData_packWord (k u : BitVec 4) (d : Byte) : wordData (packWord k u d) = d := by
  apply BitVec.eq_of_toNat_eq
  have hd := d.isLt
  rw [wordData_toNat, packWord_toNat]
  omega

/-- Words with the same fields are the same word. -/
theorem word_ext {w v : Word} (hk : wordKind w = wordKind v) (hu : wordUnit w = wordUnit v)
    (hd : wordData w = wordData v) : w = v := by
  apply BitVec.eq_of_toNat_eq
  have hk' := congrArg BitVec.toNat hk
  have hu' := congrArg BitVec.toNat hu
  have hd' := congrArg BitVec.toNat hd
  rw [wordKind_toNat, wordKind_toNat] at hk'
  rw [wordUnit_toNat, wordUnit_toNat] at hu'
  rw [wordData_toNat, wordData_toNat] at hd'
  omega

theorem withoutData_ok {d : Byte} {st st' : Stimulus} :
    withoutData d st = .ok st' ↔ d = 0x00 ∧ st = st' := by
  unfold withoutData
  split
  · next h => exact ⟨fun e => ⟨h, Except.ok.inj e⟩, fun e => e.2 ▸ rfl⟩
  · next h => exact ⟨(by intro e; cases e), fun e => absurd e.1 h⟩

theorem withoutData_error {d : Byte} {st : Stimulus} {r : WordRefusal} :
    withoutData d st = .error r ↔ d ≠ 0x00 ∧ r = .badData := by
  unfold withoutData
  split
  · next h => exact ⟨(by intro e; cases e), fun e => absurd h e.1⟩
  · next h => exact ⟨fun e => ⟨h, (Except.error.inj e).symm⟩, fun e => e.2 ▸ rfl⟩

@[simp] theorem withoutData_zero (st : Stimulus) : withoutData 0#8 st = .ok st := rfl

@[simp] theorem linkOfUnit_unitOfLink (n : Link) : linkOfUnit (unitOfLink n).toNat = some n := by
  cases n <;> rfl

@[simp] theorem engineOfUnit_unitOfEngine (u : Engine) : engineOfUnit (unitOfEngine u).toNat = some u := by
  cases u <;> rfl

end Sys2Proof
end

