-- ==== Sys2Proof/Laws/State.lean ====
section
/-!
SUPPORT. One lemma per field per update of the state, so that no proof unfolds a record update.
-/

namespace Sys2Proof

/-! ## Families -/

theorem PerLink.get_set {α : Type} (p : PerLink α) (n m : Link) (v : α) :
    (p.set n v).get m = if m = n then v else p.get m := by
  cases n <;> cases m <;> rfl

@[simp] theorem PerLink.get_set_same {α : Type} (p : PerLink α) (n : Link) (v : α) : (p.set n v).get n = v := by
  cases n <;> rfl

@[simp] theorem PerLink.get_set_other {α : Type} (p : PerLink α) {n m : Link} (h : m ≠ n) (v : α) :
    (p.set n v).get m = p.get m := by
  rw [PerLink.get_set, if_neg h]

@[simp] theorem PerLink.get_all {α : Type} (v : α) (n : Link) : (PerLink.all v).get n = v := by
  cases n <;> rfl

theorem PerEngine.get_set {α : Type} (p : PerEngine α) (u v : Engine) (x : α) :
    (p.set u x).get v = if v = u then x else p.get v := by
  cases u <;> cases v <;> rfl

@[simp] theorem PerEngine.get_set_same {α : Type} (p : PerEngine α) (u : Engine) (x : α) :
    (p.set u x).get u = x := by
  cases u <;> rfl

@[simp] theorem PerEngine.get_set_other {α : Type} (p : PerEngine α) {u v : Engine} (h : v ≠ u) (x : α) :
    (p.set u x).get v = p.get v := by
  rw [PerEngine.get_set, if_neg h]

end Sys2Proof

namespace Sys2Proof.Machine

/-! ## setEcho -/

@[simp] theorem State.setEcho_cfg (s : State) (n : Link) (e : Echo) : (s.setEcho n e).cfg = s.cfg := rfl
@[simp] theorem State.setEcho_periodic (s : State) (n : Link) (e : Echo) : (s.setEcho n e).periodic = s.periodic := rfl
@[simp] theorem State.setEcho_txLog (s : State) (n : Link) (e : Echo) : (s.setEcho n e).txLog = s.txLog := rfl
@[simp] theorem State.setEcho_hostLog (s : State) (n : Link) (e : Echo) : (s.setEcho n e).hostLog = s.hostLog := rfl
@[simp] theorem State.setEcho_wireHavoc (s : State) (n : Link) (e : Echo) : (s.setEcho n e).wireHavoc = s.wireHavoc := rfl
@[simp] theorem State.setEcho_refusalMark (s : State) (n : Link) (e : Echo) : (s.setEcho n e).refusalMark = s.refusalMark := rfl
@[simp] theorem State.setEcho_faultMark (s : State) (n : Link) (e : Echo) : (s.setEcho n e).faultMark = s.faultMark := rfl
@[simp] theorem State.setEcho_env (s : State) (n : Link) (e : Echo) : (s.setEcho n e).env = s.env := rfl
@[simp] theorem State.setEcho_script (s : State) (n : Link) (e : Echo) : (s.setEcho n e).script = s.script := rfl
@[simp] theorem State.setEcho_periodicOf (s : State) (n : Link) (e : Echo) (v : Engine) :
    (s.setEcho n e).periodicOf v = s.periodicOf v := rfl
@[simp] theorem State.setEcho_divisorOf (s : State) (n : Link) (e : Echo) (v : Engine) :
    (s.setEcho n e).divisorOf v = s.divisorOf v := rfl

/-! ## setPeriodic -/

@[simp] theorem State.setPeriodic_cfg (s : State) (u : Engine) (p : Periodic) : (s.setPeriodic u p).cfg = s.cfg := rfl
@[simp] theorem State.setPeriodic_echo (s : State) (u : Engine) (p : Periodic) : (s.setPeriodic u p).echo = s.echo := rfl
@[simp] theorem State.setPeriodic_txLog (s : State) (u : Engine) (p : Periodic) : (s.setPeriodic u p).txLog = s.txLog := rfl
@[simp] theorem State.setPeriodic_hostLog (s : State) (u : Engine) (p : Periodic) : (s.setPeriodic u p).hostLog = s.hostLog := rfl
@[simp] theorem State.setPeriodic_wireHavoc (s : State) (u : Engine) (p : Periodic) : (s.setPeriodic u p).wireHavoc = s.wireHavoc := rfl
@[simp] theorem State.setPeriodic_refusalMark (s : State) (u : Engine) (p : Periodic) : (s.setPeriodic u p).refusalMark = s.refusalMark := rfl
@[simp] theorem State.setPeriodic_faultMark (s : State) (u : Engine) (p : Periodic) : (s.setPeriodic u p).faultMark = s.faultMark := rfl
@[simp] theorem State.setPeriodic_env (s : State) (u : Engine) (p : Periodic) : (s.setPeriodic u p).env = s.env := rfl
@[simp] theorem State.setPeriodic_script (s : State) (u : Engine) (p : Periodic) : (s.setPeriodic u p).script = s.script := rfl
@[simp] theorem State.setPeriodic_echoOf (s : State) (u : Engine) (p : Periodic) (m : Link) :
    (s.setPeriodic u p).echoOf m = s.echoOf m := rfl
@[simp] theorem State.setPeriodic_divisorOf (s : State) (u : Engine) (p : Periodic) (v : Engine) :
    (s.setPeriodic u p).divisorOf v = s.divisorOf v := rfl

/-! ## emit -/

@[simp] theorem State.emit_cfg (s : State) (n : Link) (b : Byte) : (s.emit n b).cfg = s.cfg := rfl
@[simp] theorem State.emit_echo (s : State) (n : Link) (b : Byte) : (s.emit n b).echo = s.echo := rfl
@[simp] theorem State.emit_periodic (s : State) (n : Link) (b : Byte) : (s.emit n b).periodic = s.periodic := rfl
@[simp] theorem State.emit_hostLog (s : State) (n : Link) (b : Byte) : (s.emit n b).hostLog = s.hostLog := rfl
@[simp] theorem State.emit_wireHavoc (s : State) (n : Link) (b : Byte) : (s.emit n b).wireHavoc = s.wireHavoc := rfl
@[simp] theorem State.emit_refusalMark (s : State) (n : Link) (b : Byte) : (s.emit n b).refusalMark = s.refusalMark := rfl
@[simp] theorem State.emit_faultMark (s : State) (n : Link) (b : Byte) : (s.emit n b).faultMark = s.faultMark := rfl
@[simp] theorem State.emit_env (s : State) (n : Link) (b : Byte) : (s.emit n b).env = s.env := rfl
@[simp] theorem State.emit_script (s : State) (n : Link) (b : Byte) : (s.emit n b).script = s.script := rfl
@[simp] theorem State.emit_echoOf (s : State) (n : Link) (b : Byte) (m : Link) :
    (s.emit n b).echoOf m = s.echoOf m := rfl
@[simp] theorem State.emit_periodicOf (s : State) (n : Link) (b : Byte) (v : Engine) :
    (s.emit n b).periodicOf v = s.periodicOf v := rfl
@[simp] theorem State.emit_divisorOf (s : State) (n : Link) (b : Byte) (v : Engine) :
    (s.emit n b).divisorOf v = s.divisorOf v := rfl

/-! ## hostWrite -/

@[simp] theorem State.hostWrite_cfg (s : State) (n : Link) (b : Byte) : (s.hostWrite n b).cfg = s.cfg := rfl
@[simp] theorem State.hostWrite_echo (s : State) (n : Link) (b : Byte) : (s.hostWrite n b).echo = s.echo := rfl
@[simp] theorem State.hostWrite_periodic (s : State) (n : Link) (b : Byte) : (s.hostWrite n b).periodic = s.periodic := rfl
@[simp] theorem State.hostWrite_txLog (s : State) (n : Link) (b : Byte) : (s.hostWrite n b).txLog = s.txLog := rfl
@[simp] theorem State.hostWrite_refusalMark (s : State) (n : Link) (b : Byte) : (s.hostWrite n b).refusalMark = s.refusalMark := rfl
@[simp] theorem State.hostWrite_faultMark (s : State) (n : Link) (b : Byte) : (s.hostWrite n b).faultMark = s.faultMark := rfl
@[simp] theorem State.hostWrite_env (s : State) (n : Link) (b : Byte) : (s.hostWrite n b).env = s.env := rfl
@[simp] theorem State.hostWrite_script (s : State) (n : Link) (b : Byte) : (s.hostWrite n b).script = s.script := rfl
@[simp] theorem State.hostWrite_echoOf (s : State) (n : Link) (b : Byte) (m : Link) :
    (s.hostWrite n b).echoOf m = s.echoOf m := rfl
@[simp] theorem State.hostWrite_periodicOf (s : State) (n : Link) (b : Byte) (v : Engine) :
    (s.hostWrite n b).periodicOf v = s.periodicOf v := rfl
@[simp] theorem State.hostWrite_divisorOf (s : State) (n : Link) (b : Byte) (v : Engine) :
    (s.hostWrite n b).divisorOf v = s.divisorOf v := rfl

/-! ## markRefusal -/

@[simp] theorem State.markRefusal_cfg (s : State) (r : WordRefusal) : (s.markRefusal r).cfg = s.cfg := rfl
@[simp] theorem State.markRefusal_echo (s : State) (r : WordRefusal) : (s.markRefusal r).echo = s.echo := rfl
@[simp] theorem State.markRefusal_periodic (s : State) (r : WordRefusal) : (s.markRefusal r).periodic = s.periodic := rfl
@[simp] theorem State.markRefusal_txLog (s : State) (r : WordRefusal) : (s.markRefusal r).txLog = s.txLog := rfl
@[simp] theorem State.markRefusal_hostLog (s : State) (r : WordRefusal) : (s.markRefusal r).hostLog = s.hostLog := rfl
@[simp] theorem State.markRefusal_wireHavoc (s : State) (r : WordRefusal) : (s.markRefusal r).wireHavoc = s.wireHavoc := rfl
@[simp] theorem State.markRefusal_faultMark (s : State) (r : WordRefusal) : (s.markRefusal r).faultMark = s.faultMark := rfl
@[simp] theorem State.markRefusal_env (s : State) (r : WordRefusal) : (s.markRefusal r).env = s.env := rfl
@[simp] theorem State.markRefusal_script (s : State) (r : WordRefusal) : (s.markRefusal r).script = s.script := rfl
@[simp] theorem State.markRefusal_echoOf (s : State) (r : WordRefusal) (m : Link) :
    (s.markRefusal r).echoOf m = s.echoOf m := rfl
@[simp] theorem State.markRefusal_periodicOf (s : State) (r : WordRefusal) (v : Engine) :
    (s.markRefusal r).periodicOf v = s.periodicOf v := rfl
@[simp] theorem State.markRefusal_divisorOf (s : State) (r : WordRefusal) (v : Engine) :
    (s.markRefusal r).divisorOf v = s.divisorOf v := rfl

/-! ## markFault -/

@[simp] theorem State.markFault_cfg (s : State) (f : Fault) : (s.markFault f).cfg = s.cfg := rfl
@[simp] theorem State.markFault_echo (s : State) (f : Fault) : (s.markFault f).echo = s.echo := rfl
@[simp] theorem State.markFault_periodic (s : State) (f : Fault) : (s.markFault f).periodic = s.periodic := rfl
@[simp] theorem State.markFault_txLog (s : State) (f : Fault) : (s.markFault f).txLog = s.txLog := rfl
@[simp] theorem State.markFault_hostLog (s : State) (f : Fault) : (s.markFault f).hostLog = s.hostLog := rfl
@[simp] theorem State.markFault_wireHavoc (s : State) (f : Fault) : (s.markFault f).wireHavoc = s.wireHavoc := rfl
@[simp] theorem State.markFault_refusalMark (s : State) (f : Fault) : (s.markFault f).refusalMark = s.refusalMark := rfl
@[simp] theorem State.markFault_env (s : State) (f : Fault) : (s.markFault f).env = s.env := rfl
@[simp] theorem State.markFault_script (s : State) (f : Fault) : (s.markFault f).script = s.script := rfl
@[simp] theorem State.markFault_echoOf (s : State) (f : Fault) (m : Link) :
    (s.markFault f).echoOf m = s.echoOf m := rfl
@[simp] theorem State.markFault_periodicOf (s : State) (f : Fault) (v : Engine) :
    (s.markFault f).periodicOf v = s.periodicOf v := rfl
@[simp] theorem State.markFault_divisorOf (s : State) (f : Fault) (v : Engine) :
    (s.markFault f).divisorOf v = s.divisorOf v := rfl

/-! ## offer -/

@[simp] theorem State.offer_cfg (s : State) (ws : List Word) : (s.offer ws).cfg = s.cfg := rfl
@[simp] theorem State.offer_echo (s : State) (ws : List Word) : (s.offer ws).echo = s.echo := rfl
@[simp] theorem State.offer_periodic (s : State) (ws : List Word) : (s.offer ws).periodic = s.periodic := rfl
@[simp] theorem State.offer_txLog (s : State) (ws : List Word) : (s.offer ws).txLog = s.txLog := rfl
@[simp] theorem State.offer_hostLog (s : State) (ws : List Word) : (s.offer ws).hostLog = s.hostLog := rfl
@[simp] theorem State.offer_wireHavoc (s : State) (ws : List Word) : (s.offer ws).wireHavoc = s.wireHavoc := rfl
@[simp] theorem State.offer_refusalMark (s : State) (ws : List Word) : (s.offer ws).refusalMark = s.refusalMark := rfl
@[simp] theorem State.offer_faultMark (s : State) (ws : List Word) : (s.offer ws).faultMark = s.faultMark := rfl
@[simp] theorem State.offer_env (s : State) (ws : List Word) : (s.offer ws).env = s.env := rfl
@[simp] theorem State.offer_echoOf (s : State) (ws : List Word) (m : Link) :
    (s.offer ws).echoOf m = s.echoOf m := rfl
@[simp] theorem State.offer_periodicOf (s : State) (ws : List Word) (v : Engine) :
    (s.offer ws).periodicOf v = s.periodicOf v := rfl
@[simp] theorem State.offer_divisorOf (s : State) (ws : List Word) (v : Engine) :
    (s.offer ws).divisorOf v = s.divisorOf v := rfl

/-! ## offerNext -/

@[simp] theorem State.offerNext_cfg (s : State) (w : Word) :
    (s.offerNext w).cfg = s.cfg := rfl
@[simp] theorem State.offerNext_echo (s : State) (w : Word) :
    (s.offerNext w).echo = s.echo := rfl
@[simp] theorem State.offerNext_periodic (s : State) (w : Word) :
    (s.offerNext w).periodic = s.periodic := rfl
@[simp] theorem State.offerNext_txLog (s : State) (w : Word) :
    (s.offerNext w).txLog = s.txLog := rfl
@[simp] theorem State.offerNext_hostLog (s : State) (w : Word) :
    (s.offerNext w).hostLog = s.hostLog := rfl
@[simp] theorem State.offerNext_wireHavoc (s : State) (w : Word) :
    (s.offerNext w).wireHavoc = s.wireHavoc := rfl
@[simp] theorem State.offerNext_refusalMark (s : State) (w : Word) :
    (s.offerNext w).refusalMark = s.refusalMark := rfl
@[simp] theorem State.offerNext_faultMark (s : State) (w : Word) :
    (s.offerNext w).faultMark = s.faultMark := rfl
@[simp] theorem State.offerNext_env (s : State) (w : Word) :
    (s.offerNext w).env = s.env := rfl
@[simp] theorem State.offerNext_echoOf (s : State) (w : Word) (m : Link) :
    (s.offerNext w).echoOf m = s.echoOf m := rfl
@[simp] theorem State.offerNext_periodicOf (s : State) (w : Word) (v : Engine) :
    (s.offerNext w).periodicOf v = s.periodicOf v := rfl
@[simp] theorem State.offerNext_divisorOf (s : State) (w : Word) (v : Engine) :
    (s.offerNext w).divisorOf v = s.divisorOf v := rfl

/-! ## consume -/

@[simp] theorem State.consume_cfg (s : State) (n : Link) (b : Byte) :
    (s.consume n b).cfg = s.cfg := rfl
@[simp] theorem State.consume_echo (s : State) (n : Link) (b : Byte) :
    (s.consume n b).echo = s.echo := rfl
@[simp] theorem State.consume_periodic (s : State) (n : Link) (b : Byte) :
    (s.consume n b).periodic = s.periodic := rfl
@[simp] theorem State.consume_txLog (s : State) (n : Link) (b : Byte) :
    (s.consume n b).txLog = s.txLog := rfl
@[simp] theorem State.consume_hostLog (s : State) (n : Link) (b : Byte) :
    (s.consume n b).hostLog = s.hostLog := rfl
@[simp] theorem State.consume_wireHavoc (s : State) (n : Link) (b : Byte) :
    (s.consume n b).wireHavoc = s.wireHavoc := rfl
@[simp] theorem State.consume_refusalMark (s : State) (n : Link) (b : Byte) :
    (s.consume n b).refusalMark = s.refusalMark := rfl
@[simp] theorem State.consume_faultMark (s : State) (n : Link) (b : Byte) :
    (s.consume n b).faultMark = s.faultMark := rfl
@[simp] theorem State.consume_script (s : State) (n : Link) (b : Byte) :
    (s.consume n b).script = s.script := rfl
@[simp] theorem State.consume_echoOf (s : State) (n : Link) (b : Byte) (m : Link) :
    (s.consume n b).echoOf m = s.echoOf m := rfl
@[simp] theorem State.consume_periodicOf (s : State) (n : Link) (b : Byte) (v : Engine) :
    (s.consume n b).periodicOf v = s.periodicOf v := rfl
@[simp] theorem State.consume_divisorOf (s : State) (n : Link) (b : Byte) (v : Engine) :
    (s.consume n b).divisorOf v = s.divisorOf v := rfl

/-! ## What the updates write -/

theorem State.setEcho_echoOf (s : State) (n m : Link) (e : Echo) :
    (s.setEcho n e).echoOf m = if m = n then e else s.echoOf m :=
  PerLink.get_set _ _ _ _

@[simp] theorem State.setEcho_echoOf_same (s : State) (n : Link) (e : Echo) : (s.setEcho n e).echoOf n = e :=
  PerLink.get_set_same _ _ _

@[simp] theorem State.setEcho_echoOf_other (s : State) {n m : Link} (h : m ≠ n) (e : Echo) :
    (s.setEcho n e).echoOf m = s.echoOf m :=
  PerLink.get_set_other _ h _

@[simp] theorem State.setEcho_setEcho (s : State) (n : Link) (e e' : Echo) :
    (s.setEcho n e).setEcho n e' = s.setEcho n e' := by
  cases n <;> rfl

theorem State.setPeriodic_periodicOf (s : State) (u v : Engine) (p : Periodic) :
    (s.setPeriodic u p).periodicOf v = if v = u then p else s.periodicOf v :=
  PerEngine.get_set _ _ _ _

@[simp] theorem State.setPeriodic_periodicOf_same (s : State) (u : Engine) (p : Periodic) :
    (s.setPeriodic u p).periodicOf u = p :=
  PerEngine.get_set_same _ _ _

@[simp] theorem State.setPeriodic_periodicOf_other (s : State) {u v : Engine} (h : v ≠ u) (p : Periodic) :
    (s.setPeriodic u p).periodicOf v = s.periodicOf v :=
  PerEngine.get_set_other _ h _

theorem State.emit_txLog_get (s : State) (n m : Link) (b : Byte) :
    (s.emit n b).txLog.get m = if m = n then s.txLog.get n ++ [b] else s.txLog.get m :=
  PerLink.get_set _ _ _ _

@[simp] theorem State.emit_txLog_same (s : State) (n : Link) (b : Byte) :
    (s.emit n b).txLog.get n = s.txLog.get n ++ [b] :=
  PerLink.get_set_same _ _ _

@[simp] theorem State.emit_txLog_other (s : State) {n m : Link} (h : m ≠ n) (b : Byte) :
    (s.emit n b).txLog.get m = s.txLog.get m :=
  PerLink.get_set_other _ h _

@[simp] theorem State.hostWrite_hostLog_same (s : State) (n : Link) (b : Byte) :
    (s.hostWrite n b).hostLog.get n = s.hostLog.get n ++ [b] :=
  PerLink.get_set_same _ _ _

@[simp] theorem State.hostWrite_hostLog_other (s : State) {n m : Link} (h : m ≠ n) (b : Byte) :
    (s.hostWrite n b).hostLog.get m = s.hostLog.get m :=
  PerLink.get_set_other _ h _

@[simp] theorem State.hostWrite_wireHavoc_same (s : State) (n : Link) (b : Byte) :
    (s.hostWrite n b).wireHavoc.get n = true :=
  PerLink.get_set_same _ _ _

@[simp] theorem State.hostWrite_wireHavoc_other (s : State) {n m : Link} (h : m ≠ n) (b : Byte) :
    (s.hostWrite n b).wireHavoc.get m = s.wireHavoc.get m :=
  PerLink.get_set_other _ h _

@[simp] theorem State.markRefusal_mark (s : State) (r : WordRefusal) :
    (s.markRefusal r).refusalMark = (s.refusalMark <|> some r) := rfl

@[simp] theorem State.markFault_mark (s : State) (f : Fault) :
    (s.markFault f).faultMark = (s.faultMark <|> some f) := rfl

@[simp] theorem State.offer_script_eq (s : State) (ws : List Word) : (s.offer ws).script = s.script ++ ws := rfl

@[simp] theorem State.offerNext_script_eq (s : State) (w : Word) : (s.offerNext w).script = w :: s.script := rfl

/-- Taking a byte touches nothing of the environment but the links' holdings. -/
theorem State.consume_env (s : State) (n : Link) (b : Byte) :
    (s.consume n b).env = { s.env with rxHold := (s.consume n b).env.rxHold } := rfl

@[simp] theorem State.consume_rxHold_same (s : State) (n : Link) (b : Byte) :
    (s.consume n b).env.rxHold.get n = takeOffered b (s.env.rxHold.get n) :=
  PerLink.get_set_same _ _ _

@[simp] theorem State.consume_rxHold_other (s : State) {n m : Link} (h : m ≠ n) (b : Byte) :
    (s.consume n b).env.rxHold.get m = s.env.rxHold.get m :=
  PerLink.get_set_other _ h _

@[simp] theorem takeOffered_nil (b : Byte) : takeOffered b [] = [] := rfl

@[simp] theorem takeOffered_head (b : Byte) (rest : List Byte) : takeOffered b (b :: rest) = rest := by
  simp [takeOffered]

/-- With no byte held, taking one changes nothing. -/
theorem State.consume_of_empty {s : State} {n : Link} (h : s.env.rxHold.get n = []) (b : Byte) :
    s.consume n b = s := by
  have hset : s.env.rxHold.set n [] = s.env.rxHold := by
    cases n <;> simp only [PerLink.set] <;> rw [← h] <;> rfl
  simp only [State.consume, h, takeOffered_nil, hset]

end Sys2Proof.Machine
end

