-- ==== Sys2Proof/Laws/Memory.lean ====
section
/-!
SUPPORT. The laws of an accumulator's contents: read after write, the canonical form, and equality of equal readings.
-/

namespace Sys2Proof.Machine

@[simp] theorem Memory.read_write_same (m : Memory) (i : Nat) (v : Byte) : (m.write i v).read i = some v := by
  induction m with
  | nil => simp [Memory.write, Memory.read]
  | cons c m ih =>
    obtain ⟨a, b⟩ := c
    by_cases h : i < a
    · simp [Memory.write, Memory.read, h]
    · by_cases h' : i = a
      · simp [Memory.write, Memory.read, h']
      · simp [Memory.write, Memory.read, h, h', ih]

@[simp] theorem Memory.read_write_other (m : Memory) {i j : Nat} (hij : j ≠ i) (v : Byte) :
    (m.write i v).read j = m.read j := by
  induction m with
  | nil => simp [Memory.write, Memory.read, hij]
  | cons c m ih =>
    obtain ⟨a, b⟩ := c
    by_cases h : i < a
    · simp [Memory.write, Memory.read, h, hij]
    · by_cases h' : i = a
      · subst h'
        simp [Memory.write, Memory.read, hij]
      · simp [Memory.write, Memory.read, h, h', ih]

theorem Memory.read_write (m : Memory) (i j : Nat) (v : Byte) :
    (m.write i v).read j = if j = i then some v else m.read j := by
  split
  · next h => rw [h, Memory.read_write_same]
  · next h => exact Memory.read_write_other m h v

/-- A write adds no index but its own. -/
theorem Memory.mem_write {m : Memory} {i : Nat} {v : Byte} {c : Host.Cell} (h : c ∈ m.write i v) :
    c = (i, v) ∨ c ∈ m := by
  induction m with
  | nil => simpa [Memory.write] using h
  | cons d m ih =>
    obtain ⟨a, b⟩ := d
    simp only [Memory.write] at h
    split at h
    · simpa using h
    · split at h
      · rcases List.mem_cons.mp h with h | h
        · exact .inl h
        · exact .inr (List.mem_cons_of_mem _ h)
      · rcases List.mem_cons.mp h with h | h
        · exact .inr (h ▸ List.mem_cons_self)
        · exact (ih h).imp id (List.mem_cons_of_mem _)

theorem Memory.wf_cons {a : Nat} {b : Byte} {m : Memory} :
    Memory.wf ((a, b) :: m) ↔ (∀ c ∈ m, a < c.1) ∧ Memory.wf m := by
  simp [Memory.wf, List.pairwise_cons]

/-- A write keeps the canonical form. -/
theorem Memory.write_wf {m : Memory} (h : m.wf) (i : Nat) (v : Byte) : (m.write i v).wf := by
  induction m with
  | nil => simp [Memory.write, Memory.wf]
  | cons d m ih =>
    obtain ⟨a, b⟩ := d
    obtain ⟨hlt, hm⟩ := Memory.wf_cons.mp h
    simp only [Memory.write]
    split
    · next hi =>
      refine Memory.wf_cons.mpr ⟨?_, h⟩
      intro c hc
      rcases List.mem_cons.mp hc with rfl | hc
      · exact hi
      · exact hi.trans (hlt c hc)
    · next hi =>
      split
      · next he =>
        subst he
        exact Memory.wf_cons.mpr ⟨hlt, hm⟩
      · next hne =>
        refine Memory.wf_cons.mpr ⟨?_, ih hm⟩
        intro c hc
        rcases Memory.mem_write hc with rfl | hc
        · exact lt_of_le_of_ne (not_lt.mp hi) (Ne.symm hne)
        · exact hlt c hc

/-- A write stays inside the address space it starts in. -/
theorem Memory.write_inside {m : Memory} {size i : Nat} (h : ∀ c ∈ m, c.1 < size) (hi : i < size) (v : Byte) :
    ∀ c ∈ m.write i v, c.1 < size := by
  intro c hc
  rcases Memory.mem_write hc with rfl | hc
  · exact hi
  · exact h c hc

/-- An index below every listed index reads as unwritten. -/
theorem Memory.read_below {m : Memory} {i : Nat} (h : ∀ c ∈ m, i < c.1) : m.read i = none := by
  induction m with
  | nil => rfl
  | cons d m ih =>
    obtain ⟨a, b⟩ := d
    have ha : i < a := h (a, b) List.mem_cons_self
    rw [Memory.read, if_neg ha.ne, ih fun c hc => h c (List.mem_cons_of_mem _ hc)]

/-- Canonical contents that read the same everywhere are the same data. -/
theorem Memory.ext_read {m m' : Memory} (h : m.wf) (h' : m'.wf) (hr : ∀ i, m.read i = m'.read i) : m = m' := by
  induction m generalizing m' with
  | nil =>
    cases m' with
    | nil => rfl
    | cons d m' => simpa [Memory.read] using hr d.1
  | cons c m ih =>
    obtain ⟨a, b⟩ := c
    obtain ⟨hlt, hm⟩ := Memory.wf_cons.mp h
    cases m' with
    | nil => simpa [Memory.read] using hr a
    | cons d m' =>
      obtain ⟨a', b'⟩ := d
      obtain ⟨hlt', hm'⟩ := Memory.wf_cons.mp h'
      have haa : a = a' := by
        rcases Nat.lt_trichotomy a a' with hl | he | hg
        · have hz : Memory.read ((a', b') :: m') a = none := by
            rw [Memory.read, if_neg hl.ne, Memory.read_below fun c hc => hl.trans (hlt' c hc)]
          have := hr a
          rw [hz] at this
          simp [Memory.read] at this
        · exact he
        · have hz : Memory.read ((a, b) :: m) a' = none := by
            rw [Memory.read, if_neg hg.ne, Memory.read_below fun c hc => hg.trans (hlt c hc)]
          have := hr a'
          rw [hz] at this
          simp [Memory.read] at this
      subst haa
      have hb : b = b' := by simpa [Memory.read] using hr a
      subst hb
      congr 1
      refine ih hm hm' fun i => ?_
      by_cases hi : i = a
      · subst hi
        rw [Memory.read_below hlt, Memory.read_below hlt']
      · simpa [Memory.read, hi] using hr i

end Sys2Proof.Machine
end

