-- ==== Sys2Proof/Laws/Ops.lean ====
section
/-!
SUPPORT. One lemma per shared operation, saying once everything it can do.
-/

namespace Sys2Proof.Machine

/-! ## Memory access -/

theorem State.memRead_ok {s : State} {n : Link} {i : Nat} {b : Byte} :
    s.memRead n i = .ok b ↔ i < s.cfg.capacity ∧ (s.echoOf n).buf.read i = some b := by
  unfold State.memRead
  split
  · next h => cases hr : (s.echoOf n).buf.read i <;> simp [h]
  · next h => simp [h]

theorem State.memWrite_ok {s t : State} {n : Link} {i : Nat} {v : Byte} :
    s.memWrite n i v = .ok t ↔
      i < s.cfg.capacity ∧ t = s.setEcho n { s.echoOf n with buf := (s.echoOf n).buf.write i v } := by
  unfold State.memWrite
  split
  · next h => simp [h, eq_comm]
  · next h => simp [h]

/-! ## Effects -/

theorem startEcho_ok {s t : State} {n : Link} :
    startEcho s n = .ok t ↔
      (s.echoOf n).len < s.cfg.capacity ∧
        t = s.setEcho n
          { st := .echoData, len := (s.echoOf n).len, idx := 0,
            buf := (s.echoOf n).buf.write (s.echoOf n).len markByte } := by
  unfold startEcho State.memWrite
  split
  · next h => simp [h, Except.map, eq_comm]
  · next h => simp [h, Except.map]

theorem appendByte_ok {s t : State} {n : Link} {b : Byte} :
    appendByte s n b = .ok t ↔
      (s.echoOf n).len < s.cfg.capacity ∧
        t = s.setEcho n
          { s.echoOf n with
            len := (s.echoOf n).len + 1
            buf := (s.echoOf n).buf.write (s.echoOf n).len b } := by
  unfold appendByte State.memWrite
  split
  · next h => simp [h, Except.map, eq_comm]
  · next h => simp [h, Except.map]

theorem sendDataByte_ok {s t : State} {n : Link} :
    sendDataByte s n = .ok t ↔
      ∃ b, (s.echoOf n).buf.read (s.echoOf n).idx = some b ∧ (s.echoOf n).idx + 1 < s.cfg.capacity ∧
        t = (s.emit n b).setEcho n { s.echoOf n with idx := (s.echoOf n).idx + 1 } := by
  unfold sendDataByte State.memRead
  by_cases h : (s.echoOf n).idx < s.cfg.capacity
  · cases hr : (s.echoOf n).buf.read (s.echoOf n).idx with
    | none => simp [h, Except.bind]
    | some b =>
      by_cases h' : (s.echoOf n).idx + 1 < s.cfg.capacity
      · simp [h, h', Except.bind, eq_comm]
      · simp [h, h', Except.bind]
  · have : ¬ (s.echoOf n).idx + 1 < s.cfg.capacity := by omega
    simp [h, this, Except.bind]

@[simp] theorem outcomeOf_next {e : Except Fault State} {t : State} : outcomeOf e = .next t ↔ e = .ok t := by
  cases e <;> simp [outcomeOf]

@[simp] theorem outcomeOf_fault {e : Except Fault State} {f : Fault} : outcomeOf e = .fault f ↔ e = .error f := by
  cases e <;> simp [outcomeOf]

@[simp] theorem outcomeOf_refused {e : Except Fault State} {r : Refusal} : outcomeOf e ≠ .refused r := by
  cases e <;> simp [outcomeOf]

/-! ## Periodic counting -/

@[simp] theorem Periodic.clock_out (d : Divisor) (p : Periodic) : (p.clock d).out = p.out := by
  unfold Periodic.clock
  split
  · split <;> rfl
  · rfl

/-- Counting keeps the ranges. -/
theorem Periodic.clock_range {d : Divisor} {p : Periodic} (hp : p.pre < d.p) (ht : p.cnt < d.t) :
    (p.clock d).pre < d.p ∧ (p.clock d).cnt < d.t := by
  unfold Periodic.clock
  split
  · split
    · exact ⟨by simp; omega, by simp; omega⟩
    · exact ⟨by simp; omega, by simp; omega⟩
  · exact ⟨by simp; omega, ht⟩

@[simp] theorem clockBoth_periodicOf (s : State) (u : Engine) :
    (clockBoth s).periodicOf u = (s.periodicOf u).clock (s.divisorOf u) := by
  cases u <;> rfl

@[simp] theorem clockBoth_echoOf (s : State) (n : Link) : (clockBoth s).echoOf n = s.echoOf n := rfl

@[simp] theorem clockBoth_cfg (s : State) : (clockBoth s).cfg = s.cfg := rfl

end Sys2Proof.Machine
end

