-- ==== Sys2Proof/Laws/PerInstr.lean ====
section
/-!
SUPPORT. One lemma per operation: the encoded word has the bits that spec/opcode_table.json fixes for its row.
-/

namespace Sys2Proof.Laws.TableRow

/-- The row's "match" and "mask". -/
def matchMask : Instr → Word × Word
  | .reset => (0x0000, 0xFFFF)
  | .rxTerm _ => (0x100D, 0xF0FF)
  | .rxAppend _ _ => (0x1000, 0xF000)
  | .rxDrop _ _ => (0x1000, 0xF000)
  | .grantData _ => (0x2000, 0xF0FF)
  | .grantCr _ => (0x2000, 0xF0FF)
  | .grantLf _ => (0x2000, 0xF0FF)
  | .grantIdle _ => (0x2000, 0xF0FF)
  | .clk => (0x3000, 0xFFFF)
  | .tickA => (0x4000, 0xFFFF)
  | .tickB => (0x4100, 0xFFFF)
  | .tickNop _ => (0x4000, 0xFEFF)
  | .hosttx _ _ => (0x5000, 0xF000)

/-- The encoded word of a well-formed operation matches its row. -/
def Statement (i : Instr) : Prop := i.WellFormed → encode i &&& (matchMask i).2 = (matchMask i).1

theorem reset : Statement .reset := by intro _; decide

theorem rxTerm (n : Link) : Statement (.rxTerm n) := by intro _; cases n <;> decide

theorem rxAppend (n : Link) (b : Byte) : Statement (.rxAppend n b) := by
  intro _
  cases n <;> revert b <;> decide

theorem rxDrop (n : Link) (b : Byte) : Statement (.rxDrop n b) := by
  intro _
  cases n <;> revert b <;> decide

theorem grantData (n : Link) : Statement (.grantData n) := by intro _; cases n <;> decide

theorem grantCr (n : Link) : Statement (.grantCr n) := by intro _; cases n <;> decide

theorem grantLf (n : Link) : Statement (.grantLf n) := by intro _; cases n <;> decide

theorem grantIdle (n : Link) : Statement (.grantIdle n) := by intro _; cases n <;> decide

theorem clk : Statement .clk := by intro _; decide

theorem tickA : Statement .tickA := by intro _; decide

theorem tickB : Statement .tickB := by intro _; decide

theorem tickNop (u : Engine) : Statement (.tickNop u) := by intro _; cases u <;> decide

theorem hosttx (n : Link) (b : Byte) : Statement (.hosttx n b) := by
  intro _
  cases n <;> revert b <;> decide

end Sys2Proof.Laws.TableRow
end

