-- ==== Sys2Proof/Laws/Select.lean ====
section
/-!
SUPPORT. Inversion of the selection of R106 and of the meanings: what is known when an operation is selected, and what
`exec` can answer.
-/

namespace Sys2Proof.Machine

/-- What is known of an operation that a stimulus selects. -/
theorem select_op {st : Stimulus} {s : State} {i : Instr} (h : select st s = .op i) :
    i.stimulus = st ∧ i.WellFormed ∧ i.Condition s ∧ i.EnginesInRange s := by
  cases st with
  | reset => cases h; exact ⟨rfl, trivial, trivial, trivial⟩
  | hosttx n b => cases h; exact ⟨rfl, trivial, trivial, trivial⟩
  | clk =>
    simp only [select, selectClk] at h
    split at h
    · next ha =>
      split at h
      · next hb => cases h; exact ⟨rfl, trivial, trivial, ha, hb⟩
      · cases h
    · cases h
  | tick u =>
    simp only [select, selectTick] at h
    split at h
    · next hr =>
      split at h
      · next hp => cases u <;> cases h <;> exact ⟨rfl, trivial, hp, hr⟩
      · next hp => cases h; exact ⟨rfl, trivial, by simpa [Instr.Condition] using hp, hr⟩
    · cases h
  | rx n b =>
    simp only [select, selectRx, classify] at h
    split at h
    · next hr =>
      split at h
      · cases h
      · next hb =>
        have hidle : (s.echoOf n).st = .idle := not_not.mp hb
        by_cases ht : b = termByte
        · subst ht
          simp only [if_true] at h
          cases h
          exact ⟨rfl, trivial, hidle, hr⟩
        · simp only [if_neg ht] at h
          split at h
          · next hl => cases h; exact ⟨rfl, ht, ⟨hidle, hl⟩, hr⟩
          · next hl =>
            cases h
            have hrange := hr.2.1
            exact ⟨rfl, ht, ⟨hidle, by omega⟩, hr⟩
    · cases h
  | grant n =>
    simp only [select, selectGrant] at h
    split at h
    · next hr =>
      split at h
      · next hs => cases h; exact ⟨rfl, trivial, hs, hr⟩
      · next hs => cases h; exact ⟨rfl, trivial, hs, hr⟩
      · next hs =>
        split at h
        · next ha => cases h; exact ⟨rfl, trivial, ⟨hs, ha⟩, hr⟩
        · next ha => cases h; exact ⟨rfl, trivial, ⟨hs, ha⟩, hr⟩
        · cases h
      · cases h
    · cases h

theorem whenSelected_next {i : Instr} {s t : State} {e : Except Fault State} :
    whenSelected i s e = .next t ↔ select i.stimulus s = .op i ∧ e = .ok t := by
  unfold whenSelected
  cases select i.stimulus s with
  | op j =>
    by_cases hj : j = i
    · simp [hj]
    · simp [hj]
  | blocked n => simp
  | refuse r => simp
  | fault f => simp

/-- The effect of each operation. -/
def effectOf (s : State) : Instr → Except Fault State
  | .reset => .ok (resetBlock s)
  | .rxTerm n => startEcho (s.consume n termByte) n
  | .rxAppend n b => appendByte (s.consume n b) n b
  | .rxDrop n b => .ok (s.consume n b)
  | .grantData n => sendDataByte s n
  | .grantCr n => .ok (sendCr s n)
  | .grantLf n => .ok (sendLf s n)
  | .grantIdle _ => .ok s
  | .clk => .ok (clockBoth s)
  | .tickA => .ok (serviceTick s .a)
  | .tickB => .ok (serviceTick s .b)
  | .tickNop _ => .ok s
  | .hosttx n b => .ok (s.hostWrite n b)

theorem exec_eq (i : Instr) (s : State) : exec i s = whenSelected i s (effectOf s i) := by
  cases i <;> rfl

/-- `exec` answers a next state exactly where the operation is selected and its effect succeeds. -/
theorem exec_next {i : Instr} {s t : State} :
    exec i s = .next t ↔ select i.stimulus s = .op i ∧ effectOf s i = .ok t := by
  rw [exec_eq, whenSelected_next]

/-- Everything known of an operation that answered a next state. -/
theorem exec_next_cases {i : Instr} {s t : State} (h : exec i s = .next t) :
    i.WellFormed ∧ i.Condition s ∧ i.EnginesInRange s ∧ effectOf s i = .ok t := by
  obtain ⟨hs, he⟩ := exec_next.mp h
  obtain ⟨-, hw, hc, hr⟩ := select_op hs
  exact ⟨hw, hc, hr, he⟩

/-- A word has a next state exactly where it decodes to an event that selects an operation whose effect succeeds. -/
theorem stepWord_next {w : Word} {s t : State} :
    stepWord w s = .next t ↔
      ∃ st i, decodeWord w = .ok st ∧ select st s = .op i ∧ effectOf s i = .ok t := by
  unfold stepWord decodeIn
  cases hd : decodeWord w with
  | error r => simp
  | ok st =>
    simp only
    cases hs : select st s with
    | op i =>
      have hst : i.stimulus = st := (select_op hs).1
      simp [exec_next, hst, hs]
    | blocked n => simp [hs]
    | refuse r => simp [hs]
    | fault f => simp [hs]

/-- A step either waits with an empty script or is the step of the script's first word. -/
theorem step_cases {s : State} {o : Host.Outcome State Fault Refusal} (h : step s = o) :
    (s.script = [] ∧ o = .next s) ∨
      ∃ w rest, s.script = w :: rest ∧ stepWord w { s with script := rest } = o := by
  unfold step State.fetch at h
  cases hs : s.script with
  | nil => rw [hs] at h; exact .inl ⟨rfl, h.symm⟩
  | cons w rest => rw [hs] at h; exact .inr ⟨w, rest, rfl, h⟩

end Sys2Proof.Machine
end

