-- ==== Sys2Proof/Laws/Run.lean ====
section
/-!
SUPPORT. What a word does, from the event it carries; runs of words, from their parts; which operations touch an
engine.
-/

namespace Sys2Proof

/-- The word of an event carries it (30_encoding.md R103). -/
theorem decodeWord_word (st : Stimulus) : decodeWord st.word = .ok st := by
  cases st <;> simp [decodeWord, Stimulus.word, decodeFields]

end Sys2Proof

namespace Sys2Proof.Machine

/-! ## One word -/

theorem decodeIn_word (st : Stimulus) (s : State) : decodeIn st.word s = select st s := by
  unfold decodeIn
  rw [decodeWord_word]

/-- A selected operation has its effect. -/
theorem exec_of_select {st : Stimulus} {s : State} {i : Instr} (h : select st s = .op i) :
    exec i s = outcomeOf (effectOf s i) := by
  rw [exec_eq]
  unfold whenSelected
  rw [(select_op h).1, h]
  simp

theorem stepWord_of_select {st : Stimulus} {s : State} {i : Instr} (h : select st s = .op i) :
    stepWord st.word s = outcomeOf (effectOf s i) := by
  unfold stepWord
  rw [decodeIn_word, h]
  exact exec_of_select h

/-- GRANT on an engine in range (30_encoding.md R106). -/
theorem select_grant {s : State} {n : Link} (hr : s.EchoInRange n) :
    select (.grant n) s =
      match (s.echoOf n).st with
      | .idle => .op (.grantIdle n)
      | .echoLf => .op (.grantLf n)
      | .echoData =>
        match s.atEnd n with
        | .ok true => .op (.grantCr n)
        | .ok false => .op (.grantData n)
        | .error f => .fault f
      | .unused => .fault (.echoOutOfRange n) :=
  if_pos hr

/-- TICK on an engine in range (41_periodic.md R176, R177). -/
theorem select_tick {s : State} {u : Engine} (h : s.PeriodicInRange u) :
    select (.tick u) s = if (s.periodicOf u).pend then .op (tickInstr u) else .op (.tickNop u) := by
  simp only [select, selectTick, if_pos h]

/-- CLK with both engines in range (R174). -/
theorem select_clk {s : State} (ha : s.PeriodicInRange .a) (hb : s.PeriodicInRange .b) :
    select .clk s = .op .clk := by
  simp only [select, selectClk, if_pos ha, if_pos hb]

/-! ## Which operations touch an engine -/

theorem resetBlock_echoOf (s : State) (n : Link) :
    (resetBlock s).echoOf n = { st := .idle, len := 0, idx := 0, buf := [] } := by
  cases n <;> rfl

theorem resetBlock_periodicOf (s : State) (u : Engine) :
    (resetBlock s).periodicOf u = { pre := 0, cnt := 0, pend := false, out := s.outInactiveOf u } := by
  cases u <;> rfl

/-- An operation that answers a next state leaves echo engine `n` alone, or is RESET or one of the engine's own. -/
theorem exec_echo_cases {i : Instr} {s t : State} (h : exec i s = .next t) (n : Link) :
    t.echoOf n = s.echoOf n ∨ i = .reset ∨ i = .rxTerm n ∨ (∃ b, i = .rxAppend n b) ∨ i = .grantData n ∨
      i = .grantCr n ∨ i = .grantLf n := by
  obtain ⟨-, -, -, he⟩ := exec_next_cases h
  cases i
  case reset => exact .inr (.inl rfl)
  case rxTerm m =>
    obtain ⟨_, rfl⟩ := startEcho_ok.mp he
    by_cases hm : n = m <;> simp [hm]
  case rxAppend m b =>
    obtain ⟨_, rfl⟩ := appendByte_ok.mp he
    by_cases hm : n = m <;> simp [hm]
  case grantData m =>
    obtain ⟨b, _, _, rfl⟩ := sendDataByte_ok.mp he
    by_cases hm : n = m <;> simp [hm]
  case grantCr m => cases he; by_cases hm : n = m <;> simp [sendCr, hm]
  case grantLf m => cases he; by_cases hm : n = m <;> simp [sendLf, hm]
  all_goals cases he; exact .inl rfl

/-! ## Runs -/

theorem runWords_append (ws ws' : List Word) (s : State) :
    runWords (ws ++ ws') s = (runWords ws s).bind (runWords ws') := by
  induction ws generalizing s with
  | nil => rfl
  | cons w ws ih =>
    simp only [List.cons_append, runWords]
    split
    · exact ih _
    · rfl
    · rfl

theorem runWords_cons_next {w : Word} {ws : List Word} {s t : State} (h : stepWord w s = .next t) :
    runWords (w :: ws) s = runWords ws t := by
  simp only [runWords, h]

/-- A run that takes its first word goes on from that word's next state. -/
theorem runWords_cons {w : Word} {ws : List Word} {s t : State} :
    runWords (w :: ws) s = some t ↔ ∃ u, stepWord w s = .next u ∧ runWords ws u = some t := by
  simp only [runWords]
  cases stepWord w s <;> simp

/-! ## The reset state -/

/-- In the reset state an event selects the operation `Stimulus.fromReset` names (log 4). -/
theorem select_reset (st : Stimulus) : select st State.reset = .op st.fromReset := by
  cases st with
  | reset => rfl
  | hosttx n b => rfl
  | clk => exact select_clk ⟨Nat.succ_pos _, Nat.succ_pos _⟩ ⟨Nat.succ_pos _, Nat.succ_pos _⟩
  | grant n => cases n <;> rfl
  | tick u => cases u <;> exact select_tick ⟨Nat.succ_pos _, Nat.succ_pos _⟩
  | rx n b =>
    by_cases hb : b = termByte
    · subst hb; cases n <;> rfl
    · cases n <;> simp only [Stimulus.fromReset, select, selectRx, classify, if_neg hb] <;> rfl

end Sys2Proof.Machine
end

