-- ==== Sys2Proof/Tests/Slice0.lean ====
section
/-!
SUPPORT. The model's own tests. Expected results come from spec/95_test_vectors.md, the tables of
spec/30_encoding.md and the examples of the rules, or from hand calculation with them. Below them, for every
obligation that has hypotheses, concrete data that meet them.
-/

namespace Sys2Proof.Tests

open Sys2Proof.Machine

/-! ## Small states -/

/-- `C = 4` and the pairs of 95_test_vectors.md section 2.5; both outputs inactive at 0. -/
def smallConfig : Config where
  capacity := 4
  echoNulStop := true
  clockHz := 12
  rate := ⟨2, 6⟩
  prescalers := [1, 2]
  tMax := 8
  divisor := ⟨⟨2, 3⟩, ⟨1, 2⟩⟩
  outInactive := ⟨false, false⟩
  toggleBLink := .link3
  statusLink := .link1
  baud := .all 9600
  banner := .all [0x48]
  hostNewline := [0x0A]

/-- The block after reset. -/
def small : State := State.resetWith smallConfig

/-- The block after reset with `ECHO_NUL_STOP = false`. -/
def smallVerbatim : State := State.resetWith { smallConfig with echoNulStop := false }

/-- The block after reset with `C = 1`. -/
def smallest : State := State.resetWith { smallConfig with capacity := 1 }

/-- Idle with the line "ab". -/
def twoBytes : State := small.setEcho .link1 ⟨.idle, 2, 0, [(0, 0x61), (1, 0x62)]⟩

/-- Idle and full with the line "abc". -/
def fullLine : State := small.setEcho .link1 ⟨.idle, 3, 0, [(0, 0x61), (1, 0x62), (2, 0x63)]⟩

/-- Link 2 at the start of the echo of "AB". -/
def echoing : State := small.setEcho .link2 ⟨.echoData, 2, 0, [(0, 0x41), (1, 0x42), (2, 0x00)]⟩

/-- Link 2 with the data of "AB" sent. -/
def dataSent : State := small.setEcho .link2 ⟨.echoData, 2, 2, [(0, 0x41), (1, 0x42), (2, 0x00)]⟩

/-- Link 2 with the CR sent. -/
def crSent : State := small.setEcho .link2 ⟨.echoLf, 2, 2, [(0, 0x41), (1, 0x42), (2, 0x00)]⟩

/-- A tick of `u` pending, its output at 1. -/
def ticking (u : Engine) : State := small.setPeriodic u ⟨0, 1, true, true⟩

/-- Engine A one CLK before an expiry, an earlier tick still pending. -/
def expiring : State := small.setPeriodic .a ⟨1, 2, true, false⟩

/-- Two bytes held by the link of an idle engine. -/
def holding : State := holdByte (holdByte small .link1 0x41) .link1 0x42

/-! ## Well-formedness -/

theorem test_rxAppend_of_the_terminator_is_ill_formed : ¬ (Instr.rxAppend .link1 0x0D).WellFormed := by decide

theorem test_rxDrop_of_the_terminator_is_ill_formed : ¬ (Instr.rxDrop .link2 0x0D).WellFormed := by decide

theorem test_neighbours_of_the_terminator_are_well_formed :
    (Instr.rxAppend .link1 0x0C).WellFormed ∧ (Instr.rxDrop .link1 0x0E).WellFormed := by decide

/-! ## Words, bit by bit: KIND UNIT DATA (30_encoding.md R102, R103, R109) -/

theorem test_word_reset : decodeIn 0b0000_0000_00000000 small = .op .reset := by decide
theorem test_word_rxTerm : decodeIn 0b0001_0001_00001101 small = .op (.rxTerm .link1) := by decide
theorem test_word_rxAppend : decodeIn 0b0001_0010_01000001 small = .op (.rxAppend .link2 0x41) := by decide
theorem test_word_rxDrop : decodeIn 0b0001_0001_01100100 fullLine = .op (.rxDrop .link1 0x64) := by decide
theorem test_word_grantData : decodeIn 0b0010_0010_00000000 echoing = .op (.grantData .link2) := by decide
theorem test_word_grantCr : decodeIn 0b0010_0010_00000000 dataSent = .op (.grantCr .link2) := by decide
theorem test_word_grantLf : decodeIn 0b0010_0010_00000000 crSent = .op (.grantLf .link2) := by decide
theorem test_word_grantIdle : decodeIn 0b0010_0011_00000000 small = .op (.grantIdle .link3) := by decide
theorem test_word_clk : decodeIn 0b0011_0000_00000000 small = .op .clk := by decide
theorem test_word_tickA : decodeIn 0b0100_0000_00000000 (ticking .a) = .op .tickA := by decide
theorem test_word_tickB : decodeIn 0b0100_0001_00000000 (ticking .b) = .op .tickB := by decide
theorem test_word_tickNop : decodeIn 0b0100_0001_00000000 (ticking .a) = .op (.tickNop .b) := by decide
theorem test_word_hosttx : decodeIn 0b0101_0001_01000010 small = .op (.hosttx .link1 0x42) := by decide

/-- Section 2.1: the unit is tested before the data. -/
theorem test_word_bad_units :
    [0x1400, 0x1041, 0x3100, 0x4200, 0x5000, 0x5441, 0x100D].all
      (fun w => decodeIn w small = .refuse .badUnit) = true := by decide

theorem test_word_bad_data :
    [0x0001, 0x2201, 0x4001].all (fun w => decodeIn w small = .refuse .badData) = true := by decide

theorem test_word_reserved_kinds :
    [0x6000, 0xF123].all (fun w => decodeIn w small = .refuse .reservedKind) = true := by decide

theorem test_encode_words :
    encode (.rxTerm .link3) = 0x130D ∧ encode (.rxDrop .link1 0x64) = 0x1164 ∧ encode (.grantLf .link2) = 0x2200 ∧
      encode .tickB = 0x4100 ∧ encode (.hosttx .link1 0x42) = 0x5142 := by decide

theorem test_table_words :
    decodeTableWord 16 0x110D = some (.rxTerm .link1) ∧ decodeTableWord 16 0x4100 = some (.tickNop .b) ∧
      decodeTableWord 16 0x100D = none ∧ decodeTableWord 8 0x110D = none := by decide

/-- With nothing done before, a word placed by `withFetchWord` is the first one taken (log 4). -/
theorem test_first_word_after_reset :
    (∃ t, step (State.reset.withFetchWord 16 0x110D) = .next t ∧ (t.echoOf .link1).st = .echoData ∧ t.script = []) ∧
      (∃ t, step (State.reset.withFetchWord 16 0x3000) = .next t ∧ t.script = []) :=
  ⟨⟨_, rfl, rfl, rfl⟩, ⟨_, rfl, rfl⟩⟩

/-! ## Receiving (95 section 2.2) -/

/-- V-RX-3. -/
theorem test_rxAppend_fills : (runWords [0x1163] twoBytes).map (·.echoOf .link1) =
    some ⟨.idle, 3, 0, [(0, 0x61), (1, 0x62), (2, 0x63)]⟩ := by decide

/-- V-RX-6: a line feed is data. -/
theorem test_rxAppend_line_feed : (runWords [0x110A] small).map (·.echoOf .link1) =
    some ⟨.idle, 1, 0, [(0, 0x0A)]⟩ := by decide

/-- V-RX-4. -/
theorem test_rxDrop_when_full : runWords [0x1164] fullLine = some fullLine := by decide

/-- V-RX-11: `C = 1` is always full. -/
theorem test_rxDrop_capacity_one : runWords [0x1141] smallest = some smallest := by decide

/-- V-RX-5: the terminator is honoured when full. -/
theorem test_rxTerm_when_full : (runWords [0x110D] fullLine).map (·.echoOf .link1) =
    some ⟨.echoData, 3, 0, [(0, 0x61), (1, 0x62), (2, 0x63), (3, 0x00)]⟩ := by decide

/-- V-RX-12. -/
theorem test_rxTerm_capacity_one : (runWords [0x110D] smallest).map (·.echoOf .link1) =
    some ⟨.echoData, 0, 0, [(0, 0x00)]⟩ := by decide

/-- V-RX-10: blocked, and the byte is not consumed. -/
theorem test_rx_blocked : runScript [0x120D, 0x3000] crSent = .stopped (.blocked .link2) crSent [0x120D, 0x3000] := by
  decide

/-! ## Echoing (95 section 2.3) -/

/-- V-GR-1. -/
theorem test_grantData : (runWords [0x2200] echoing).map (fun t => (t.echoOf .link2, t.txLog.get .link2)) =
    some (⟨.echoData, 2, 1, [(0, 0x41), (1, 0x42), (2, 0x00)]⟩, [0x41]) := by decide

/-- V-GR-6: without `ECHO_NUL_STOP` a NUL is sent. -/
theorem test_grantData_sends_nul :
    (runWords [0x2200] (smallVerbatim.setEcho .link2 ⟨.echoData, 3, 1, [(0, 0x41), (1, 0x00), (2, 0x42), (3, 0x00)]⟩)).map
      (fun t => ((t.echoOf .link2).idx, t.txLog.get .link2)) = some (2, [0x00]) := by decide

/-- V-GR-5: with it, a NUL ends the data. -/
theorem test_grantCr_at_nul :
    (runWords [0x2200] (small.setEcho .link2 ⟨.echoData, 3, 1, [(0, 0x41), (1, 0x00), (2, 0x42), (3, 0x00)]⟩)).map
      (fun t => ((t.echoOf .link2).st, t.txLog.get .link2)) = some (.echoLf, [0x0D]) := by decide

/-- V-GR-8: an empty line. -/
theorem test_grantCr_empty_line :
    (runWords [0x2200] (small.setEcho .link2 ⟨.echoData, 0, 0, [(0, 0x00)]⟩)).map
      (fun t => ((t.echoOf .link2).st, t.txLog.get .link2)) = some (.echoLf, [0x0D]) := by decide

/-- V-GR-3. -/
theorem test_grantLf : (runWords [0x2200] crSent).map (fun t => (t.echoOf .link2, t.txLog.get .link2)) =
    some (⟨.idle, 0, 0, [(0, 0x41), (1, 0x42), (2, 0x00)]⟩, [0x0A]) := by decide

/-- V-GR-4. -/
theorem test_grantIdle : runWords [0x2100] twoBytes = some twoBytes := by decide

/-- W1: an empty line echoes CR LF. -/
theorem test_empty_line : (runWords [0x110D, 0x2100, 0x2100] small).map (fun t => t.txLog.get .link1) =
    some [0x0D, 0x0A] := by decide

/-! ## Counting and ticking (95 section 2.5) -/

/-- CLK 6: both engines expire, and B's tick absorbs the expiry. -/
theorem test_clk_expires : (runWords [0x3000] { small with periodic := ⟨⟨1, 2, false, false⟩, ⟨0, 1, true, false⟩⟩ }).map
    (·.periodic) = some ⟨⟨0, 0, true, false⟩, ⟨0, 0, true, false⟩⟩ := by decide

/-- CLK 4. -/
theorem test_clk_counts : (runWords [0x3000] { small with periodic := ⟨⟨1, 1, false, false⟩, ⟨0, 1, true, false⟩⟩ }).map
    (·.periodic) = some ⟨⟨0, 2, false, false⟩, ⟨0, 0, true, false⟩⟩ := by decide

/-- TICK A after CLK 6. -/
theorem test_tickA : (runWords [0x4000] { small with periodic := ⟨⟨0, 0, true, false⟩, ⟨0, 0, true, false⟩⟩ }).map
    (·.periodic) = some ⟨⟨0, 0, false, true⟩, ⟨0, 0, true, false⟩⟩ := by decide

/-- The example of R176: a service at output 1 leaves 0. -/
theorem test_tickB : (runWords [0x4100] (ticking .b)).map (·.periodicOf .b) = some ⟨0, 1, false, false⟩ := by decide

/-- The last row of section 2.5. -/
theorem test_tickNop : runWords [0x4100] (ticking .a) = some (ticking .a) := by decide

/-! ## Host and reset (95 section 2.6) -/

/-- V-HT-1. -/
theorem test_hosttx : (runWords [0x5142] small).map (fun t => (t.hostLog.get .link1, t.txLog, t.wireHavoc)) =
    some ([0x42], .all [], ⟨true, false, true⟩) := by decide

/-- V-RS-1, from the abandoned echo on: what was emitted stays and the GRANT is idle. -/
theorem test_reset_abandons_an_echo :
    (runWords [0x0000, 0x2200] ({ echoing with txLog := ⟨[], [0x41], []⟩ } : State)).map
      (fun t => (t.echoOf .link2, t.txLog.get .link2)) = some (⟨.idle, 0, 0, []⟩, [0x41]) := by decide

/-- V-RS-2. -/
theorem test_reset_loses_a_tick : (runWords [0x0000, 0x4000] (ticking .a)).map (·.periodicOf .a) =
    some ⟨0, 0, false, false⟩ := by decide

/-! ## Divisors (95 section 2.4) -/

theorem test_derive_heartbeat :
    deriveDivisor Config.defaultPrescalers 65536 16000000 1 = some ⟨256, 62500⟩ := by decide
theorem test_derive_carrier :
    deriveDivisor Config.defaultPrescalers 65536 16000000 1200 = some ⟨1, 13333⟩ := by decide
theorem test_derive_rounds_halves_up :
    deriveDivisor Config.defaultPrescalers 65536 3 2 = some ⟨1, 2⟩ := by decide
theorem test_derive_largest_period :
    deriveDivisor Config.defaultPrescalers 65536 2147483648 1 = some ⟨32768, 65536⟩ := by decide
theorem test_derive_clock_too_slow : deriveDivisor Config.defaultPrescalers 65536 500 1200 = none := by decide
theorem test_derive_clock_too_fast : deriveDivisor Config.defaultPrescalers 65536 4294967296 1 = none := by decide

/-! ## Host text and script lines -/

/-- W3: 42 61 74 65 72 79 3A 31 20 20 54 61 6D 70 65 72 3A 30 20 20. -/
theorem test_status_tokens : statusTokens true false =
    [0x42, 0x61, 0x74, 0x65, 0x72, 0x79, 0x3A, 0x31, 0x20, 0x20,
     0x54, 0x61, 0x6D, 0x70, 0x65, 0x72, 0x3A, 0x30, 0x20, 0x20] := by decide

/-- R110: `DRAIN` of an echo of two bytes is four grants. -/
theorem test_drain : expandLine (.drain .link2) echoing = [0x2200, 0x2200, 0x2200, 0x2200] := by decide

/-- R211: a second offer of the link waits for the first, and the bytes are taken in arrival order. -/
theorem test_offers_one_at_a_time :
    (envStep (.offerByte .link1) (envStep (.offerByte .link1) holding)).script = [0x1141] ∧
      (runWords [0x1141] holding).map (fun t => (t.env.rxHold.get .link1, (envStep (.offerByte .link1) t).script)) =
        some ([0x42], [0x1142]) := by decide

/-- R219: the host drives its outputs one by one. -/
theorem test_host_drives_its_outputs :
    (envStep (.driveTxEnable true) small).env.txEnableAdjacent = true ∧
      (envStep (.driveTxEnable true) small).env.indicator = false ∧
      (envStep (.driveMirrors true false) small).env.mirrorPower = true ∧
      (envStep (.driveMirrors true false) small).env.powerSource = false := by decide

/-- `RX 1, 'A' ; x` (R109). -/
theorem test_parse_rx :
    parseLine ['R', 'X', ' ', '1', ',', ' ', '\'', 'A', '\'', ' ', ';', ' ', 'x'] =
      some (some (.stimulus (.rx .link1 0x41))) := by decide

/-- `HOSTTX 3, 0x0D` (R109). -/
theorem test_parse_hosttx :
    parseLine ['H', 'O', 'S', 'T', 'T', 'X', ' ', '3', ',', ' ', '0', 'x', '0', 'D'] =
      some (some (.stimulus (.hosttx .link3 0x0D))) := by decide

/-- `RXS 2, "a\r"` (R110). -/
theorem test_parse_rxs :
    parseLine ['R', 'X', 'S', ' ', '2', ',', ' ', '"', 'a', '\\', 'r', '"'] =
      some (some (.rxs .link2 [0x61, 0x0D])) := by decide

/-- `GRANT 1, 12` and `TICK C`. -/
theorem test_parse_grants :
    parseLine ['G', 'R', 'A', 'N', 'T', ' ', '1', ',', ' ', '1', '2'] = some (some (.grants .link1 12)) ∧
      parseLine ['T', 'I', 'C', 'K', ' ', 'C'] = none := by decide

/-! ## Witnesses: data that meet the hypotheses of each obligation -/

/-- The block after reset meets R37 on every link. -/
theorem small_echoInv (n : Link) : small.EchoInv n := by
  cases n <;>
    exact
      { range := by decide
        idle_idx := fun _ => rfl
        marker := fun h => absurd rfl h
        idx_le := fun h => absurd rfl h
        line := fun i hi => absurd hi (Nat.not_lt_zero i)
        no_nul := fun h => by cases h
        canonical := by decide
        inside := by decide }

theorem twoBytes_echoInv : twoBytes.EchoInv .link1 where
  range := by decide
  idle_idx _ := rfl
  marker h := absurd rfl h
  idx_le h := absurd rfl h
  line i hi := by
    have h : i < 2 := hi
    interval_cases i <;> exact ⟨_, rfl, by decide⟩
  no_nul h := by cases h
  canonical := by decide
  inside := by decide

theorem echoing_echoInv : echoing.EchoInv .link2 where
  range := by decide
  idle_idx h := by cases h
  marker _ := rfl
  idx_le _ := by decide
  line i hi := by
    have h : i < 2 := hi
    interval_cases i <;> exact ⟨_, rfl, by decide⟩
  no_nul _ _ i hi := absurd hi (Nat.not_lt_zero i)
  canonical := by decide
  inside := by decide

theorem small_inv : small.Inv where
  echo := small_echoInv
  periodic u := by cases u <;> decide
  wire n := by cases n <;> decide

/-! ### Decoding -/

theorem witness_EncodedOperationDecodesToItself :
    (Instr.rxAppend .link1 0x63).WellFormed ∧ (Instr.rxAppend .link1 0x63).EnginesInRange twoBytes ∧
      (Instr.rxAppend .link1 0x63).Condition twoBytes ∧
      (Instr.grantData .link2).EnginesInRange echoing ∧ (Instr.grantData .link2).Condition echoing ∧
      (Instr.grantCr .link2).EnginesInRange dataSent ∧ (Instr.grantCr .link2).Condition dataSent ∧
      Instr.EnginesInRange (ticking .b) .tickB ∧ Instr.Condition (ticking .b) .tickB := by
  refine ⟨by decide, ⟨?_, ?_, ?_⟩, ⟨rfl, ?_⟩, ⟨?_, ?_, ?_⟩, ⟨rfl, rfl⟩, ⟨?_, ?_, ?_⟩, ⟨rfl, rfl⟩, ⟨?_, ?_⟩, rfl⟩ <;>
    decide

theorem witness_DecodedOperationEncodesToItsWord :
    decodeIn 0x1163 twoBytes = .op (.rxAppend .link1 0x63) ∧ decodeIn 0x2200 dataSent = .op (.grantCr .link2) ∧
      decodeIn 0x4000 small = .op (.tickNop .a) := by decide

/-- A word for each reason, and scripts of both ends. -/
theorem witness_IllegalWordIsRefusedAndMarked :
    6 ≤ (0x6000 : Word).toNat / 4096 ∧ ¬ LegalUnit ((0x1400 : Word).toNat / 4096) ((0x1400 : Word).toNat / 256 % 16) ∧
      ¬ LegalData ((0x0001 : Word).toNat / 4096) ((0x0001 : Word).toNat % 256) ∧
      runScript [0x0001] small = .done (small.markRefusal .badData) ∧
      runScript [0x6000, 0x120D] crSent =
        .stopped (.blocked .link2) (crSent.markRefusal .reservedKind) [0x120D] := by decide

theorem witness_MarksAreNeverCleared :
    (small.markRefusal .badUnit).refusalMark = some .badUnit ∧
      (small.markFault (.echoOutOfRange .link1)).faultMark = some (.echoOutOfRange .link1) ∧
      runScript [0x0000] (small.markRefusal .badUnit) = .done (small.markRefusal .badUnit) ∧
      runScript [0x0000] (small.markFault (.echoOutOfRange .link1)) =
        .done (small.markFault (.echoOutOfRange .link1)) ∧
      runScript [0x120D] (crSent.markRefusal .badUnit) =
        .stopped (.blocked .link2) (crSent.markRefusal .badUnit) [0x120D] := by decide

/-- A script for each of the four outcomes, and the empty one. -/
theorem witness_StepRunsTheDecodedOperation :
    (small.offer [0x3000]).script = [0x3000] ∧ decodeIn 0x3000 { small.offer [0x3000] with script := [] } = .op .clk ∧
      decodeIn 0x120D crSent = .blocked .link2 ∧ decodeIn 0x6000 small = .refuse .reservedKind ∧
      decodeIn 0x1141 (small.setEcho .link1 ⟨.unused, 0, 0, []⟩) = .fault (.echoOutOfRange .link1) ∧
      small.script = [] := by decide

/-! ### Receiving -/

theorem witness_BusyEngineBlocksReceive :
    echoing.EchoInRange .link2 ∧ echoing.Busy .link2 ∧ crSent.EchoInRange .link2 ∧ crSent.Busy .link2 ∧
      fullLine.EchoInRange .link1 ∧ (fullLine.echoOf .link1).st = .idle := by decide

/-- Empty, with room, full, and `C = 1`. -/
theorem witness_TerminatorIsHonouredAtEveryFillLength :
    (small.EchoInRange .link1 ∧ (small.echoOf .link1).st = .idle) ∧
      (twoBytes.EchoInRange .link1 ∧ (twoBytes.echoOf .link1).st = .idle) ∧
      (fullLine.EchoInRange .link1 ∧ (fullLine.echoOf .link1).st = .idle ∧
        (fullLine.echoOf .link1).len = fullLine.cfg.capacity - 1) ∧
      (smallest.EchoInRange .link1 ∧ (smallest.echoOf .link1).st = .idle) := by decide

theorem witness_RxTermMarksTheLineAndStartsTheEcho :
    fullLine.EchoInRange .link1 ∧ (fullLine.echoOf .link1).st = .idle := by decide

/-- At the last place with room. -/
theorem witness_RxAppendStoresTheByteAndCountsIt :
    twoBytes.EchoInRange .link1 ∧ (0x63 : Byte) ≠ 0x0D ∧ (twoBytes.echoOf .link1).st = .idle ∧
      (twoBytes.echoOf .link1).len < twoBytes.cfg.capacity - 1 := by decide

theorem witness_RxDropTakesTheByteAndChangesNothing :
    (fullLine.EchoInRange .link1 ∧ (0x64 : Byte) ≠ 0x0D ∧ (fullLine.echoOf .link1).st = .idle ∧
        (fullLine.echoOf .link1).len = fullLine.cfg.capacity - 1) ∧
      (smallest.EchoInRange .link1 ∧ (smallest.echoOf .link1).st = .idle ∧
        (smallest.echoOf .link1).len = smallest.cfg.capacity - 1) := by decide

/-- One of each, the last with the byte held and another behind it. -/
theorem witness_ReceiveOperationsFrame :
    (∃ t, exec (.rxTerm .link1) fullLine = .next t) ∧ (∃ t, exec (.rxAppend .link1 0x63) twoBytes = .next t) ∧
      (holdByte (holdByte fullLine .link1 0x64) .link1 0x65).env.rxHold.get .link1 = [0x64, 0x65] ∧
      ∃ t, exec (.rxDrop .link1 0x64) (holdByte (holdByte fullLine .link1 0x64) .link1 0x65) = .next t :=
  ⟨⟨_, rfl⟩, ⟨_, rfl⟩, rfl, ⟨_, rfl⟩⟩

/-! ### Echoing -/

theorem witness_EndOfDataFollowsTheNulReading :
    ((dataSent.echoOf .link2).idx < dataSent.cfg.capacity ∧ dataSent.cfg.echoNulStop = true ∧
        (dataSent.echoOf .link2).buf.read (dataSent.echoOf .link2).idx = some 0x00) ∧
      ((echoing.echoOf .link2).buf.read (echoing.echoOf .link2).idx = some 0x41) ∧
      ((smallVerbatim.echoOf .link2).idx < smallVerbatim.cfg.capacity ∧ smallVerbatim.cfg.echoNulStop = false) := by
  decide

theorem witness_GrantDataSendsTheNextByteOfTheLine :
    echoing.EchoInv .link2 ∧ (echoing.echoOf .link2).st = .echoData ∧ echoing.atEnd .link2 = .ok false :=
  ⟨echoing_echoInv, rfl, rfl⟩

theorem witness_GrantCrSendsTheCarriageReturn :
    dataSent.EchoInRange .link2 ∧ (dataSent.echoOf .link2).st = .echoData ∧ dataSent.atEnd .link2 = .ok true :=
  ⟨by decide, rfl, rfl⟩

theorem witness_GrantLfSendsTheLineFeedAndFlushes :
    crSent.EchoInRange .link2 ∧ (crSent.echoOf .link2).st = .echoLf := by decide

theorem witness_GrantOnAnIdleEngineChangesNothing :
    twoBytes.EchoInRange .link1 ∧ (twoBytes.echoOf .link1).st = .idle := by decide

theorem witness_TransmitOperationsFrame :
    (∃ t, exec (.grantData .link2) echoing = .next t) ∧ (∃ t, exec (.grantCr .link2) dataSent = .next t) ∧
      (∃ t, exec (.grantLf .link2) crSent = .next t) ∧ ∃ t, exec (.grantIdle .link1) twoBytes = .next t :=
  ⟨⟨_, rfl⟩, ⟨_, rfl⟩, ⟨_, rfl⟩, ⟨_, rfl⟩⟩

theorem witness_OnlyEchoGrantsEmit :
    (∃ t, exec (.grantLf .link2) crSent = .next t) ∧ (∃ t, exec .reset crSent = .next t) ∧
      ∃ t, exec (.hosttx .link2 0x42) crSent = .next t :=
  ⟨⟨_, rfl⟩, ⟨_, rfl⟩, ⟨_, rfl⟩⟩

theorem witness_OnlyItsOwnEngineWritesAnAccumulator :
    (∃ t, exec (.rxTerm .link1) fullLine = .next t ∧ (t.echoOf .link1).buf ≠ (fullLine.echoOf .link1).buf) ∧
      (∃ t, exec (.rxAppend .link1 0x63) twoBytes = .next t ∧
        (t.echoOf .link1).buf ≠ (twoBytes.echoOf .link1).buf) ∧
      ∃ t, exec .reset twoBytes = .next t ∧ (t.echoOf .link1).buf ≠ (twoBytes.echoOf .link1).buf :=
  ⟨⟨_, rfl, by decide⟩, ⟨_, rfl, by decide⟩, ⟨_, rfl, by decide⟩⟩

theorem witness_EchoTakesTwoGrantsMoreThanItsBytes :
    twoBytes.EchoInv .link1 ∧ twoBytes.HoldsLine .link1 [0x61, 0x62] ∧
      (∃ t, exec (.rxTerm .link1) twoBytes = .next t) ∧
      small.EchoInv .link1 ∧ small.HoldsLine .link1 [] ∧ ∃ t, exec (.rxTerm .link1) small = .next t :=
  ⟨twoBytes_echoInv, by decide, ⟨_, rfl⟩, small_echoInv _, by decide, ⟨_, rfl⟩⟩

/-- A line of `C - 1` bytes, which is the boundary of both statements. -/
theorem witness_ShortLineIsEchoedVerbatim :
    small.EchoInv .link1 ∧ (small.echoOf .link1).st = .idle ∧ (small.echoOf .link1).len = 0 ∧
      (0x0D : Byte) ∉ [(0x61 : Byte), 0x62, 0x63] ∧
      (small.cfg.echoNulStop = true → (0x00 : Byte) ∉ [(0x61 : Byte), 0x62, 0x63]) ∧
      [(0x61 : Byte), 0x62, 0x63].length ≤ small.cfg.capacity - 1 :=
  ⟨small_echoInv _, by decide, by decide, by decide, by decide, by decide⟩

theorem witness_LongLineIsEchoedTruncated :
    small.EchoInv .link1 ∧ (small.echoOf .link1).st = .idle ∧ (small.echoOf .link1).len = 0 ∧
      (0x0D : Byte) ∉ [(0x61 : Byte), 0x62, 0x63, 0x64] ∧
      (small.cfg.echoNulStop = true → (0x00 : Byte) ∉ [(0x61 : Byte), 0x62, 0x63, 0x64]) ∧
      small.cfg.capacity - 1 ≤ [(0x61 : Byte), 0x62, 0x63, 0x64].length :=
  ⟨small_echoInv _, by decide, by decide, by decide, by decide, by decide⟩

theorem witness_UnterminatedInputIsNeverFlushed :
    twoBytes.EchoInRange .link1 ∧ (twoBytes.echoOf .link1).st = .idle ∧
      (0x0D : Byte) ∉ [(0x63 : Byte), 0x64] := by decide

theorem witness_LinksAreIndependent : ∃ t, runWords [0x1141, 0x1342, 0x110D, 0x0000, 0x2300] small = some t :=
  ⟨_, rfl⟩

theorem witness_EnoughGrantsFinishTheEcho :
    echoing.EchoInv .link2 ∧ (∃ t, runWords [0x2200, 0x3000, 0x2200, 0x2200, 0x2200] echoing = some t) ∧
      ((echoing.echoOf .link2).len - (echoing.echoOf .link2).idx) + 2 ≤
        [(0x2200 : Word), 0x3000, 0x2200, 0x2200, 0x2200].count (Stimulus.grant .link2).word :=
  ⟨echoing_echoInv, ⟨_, rfl⟩, by decide⟩

theorem witness_DrainEmptiesTheEngine : echoing.EchoInv .link2 ∧ small.EchoInv .link2 :=
  ⟨echoing_echoInv, small_echoInv _⟩

/-! ### A fair run -/

/-- `P = T = 1`: every CLK is an expiry of both engines. -/
def fastConfig : Config := { smallConfig with divisor := ⟨⟨1, 1⟩, ⟨1, 1⟩⟩ }

/-- Link 1 owes the LF of an empty line. -/
def fairStart : State := (State.resetWith fastConfig).setEcho .link1 ⟨.echoLf, 0, 0, [(0, 0x00)]⟩

/-- The block at place `r` of the cycle CLK, TICK A, TICK B, CLK, TICK A, TICK B. -/
def fairAt (r : Nat) : State :=
  { State.resetWith fastConfig with
    echo := ⟨⟨.idle, 0, 0, [(0, 0x00)]⟩, Echo.atReset, Echo.atReset⟩
    periodic := ⟨⟨0, 0, decide (r = 1 ∨ r = 4), decide (2 ≤ r ∧ r ≤ 4)⟩,
      ⟨0, 0, decide (r = 1 ∨ r = 2 ∨ r = 4 ∨ r = 5), decide (3 ≤ r)⟩⟩
    txLog := ⟨[0x0A], [], []⟩ }

def fairWordAt (r : Nat) : Word :=
  if r % 3 = 0 then Stimulus.clk.word else if r % 3 = 1 then (Stimulus.tick .a).word else (Stimulus.tick .b).word

def fairWord : Nat → Word
  | 0 => (Stimulus.grant .link1).word
  | k + 1 => fairWordAt (k % 6)

def fairState : Nat → State
  | 0 => fairStart
  | k + 1 => fairAt (k % 6)

theorem fair_cycle (r : Nat) (h : r < 6) : stepWord (fairWordAt r) (fairAt r) = .next (fairAt ((r + 1) % 6)) := by
  interval_cases r <;> rfl

theorem fair_idle (k : Nat) (n : Link) : ¬ (fairState (k + 1)).Busy n := by
  cases n <;> exact fun h => h rfl

theorem fairRun : FairRun fairWord fairState where
  run k := by
    cases k with
    | zero => rfl
    | succ k =>
      have h := fair_cycle (k % 6) (Nat.mod_lt _ (by decide))
      rwa [show (k % 6 + 1) % 6 = (k + 1) % 6 by omega] at h
  grants n k h := absurd (h (k + 1) (by omega)) (fair_idle k n)
  clocks k := by
    refine ⟨6 * k + 1, by omega, ?_⟩
    rw [fairWord, show 6 * k % 6 = 0 by omega]
    rfl
  ticks u k _ := by
    cases u with
    | a =>
      refine ⟨6 * k + 2, by omega, ?_⟩
      rw [show 6 * k + 2 = 6 * k + 1 + 1 from rfl, fairWord, show (6 * k + 1) % 6 = 1 by omega]
      rfl
    | b =>
      refine ⟨6 * k + 3, by omega, ?_⟩
      rw [show 6 * k + 3 = 6 * k + 2 + 1 from rfl, fairWord, show (6 * k + 2) % 6 = 2 by omega]
      rfl

/-- The run begins with an echo in progress. -/
theorem witness_FairRunFinishesEveryEcho :
    FairRun fairWord fairState ∧ (fairState 0).EchoInv .link1 ∧ (fairState 0).Busy .link1 := by
  refine ⟨fairRun, ?_, by decide⟩
  exact
    { range := by decide
      idle_idx := fun h => by cases h
      marker := fun _ => rfl
      idx_le := fun _ => Nat.le_refl _
      line := fun i hi => absurd hi (Nat.not_lt_zero i)
      no_nul := fun h => by cases h
      canonical := by decide
      inside := by decide }

/-! ### Periodic engines -/

/-- A cycle that counts in both engines, and one in which A expires. -/
theorem witness_ClockCycleAdvancesBothEngines :
    (small.PeriodicInRange .a ∧ small.PeriodicInRange .b) ∧
      (expiring.PeriodicInRange .a ∧ expiring.PeriodicInRange .b ∧ expiring.Expiring .a) := by decide

/-- With a tick already pending, and without. -/
theorem witness_ExpiryIsAbsorbedByAPendingTick :
    (expiring.PeriodicInRange .a ∧ expiring.PeriodicInRange .b ∧ expiring.Expiring .a ∧
        (expiring.periodicOf .a).pend = true) ∧
      ((small.setPeriodic .b ⟨0, 1, false, true⟩).PeriodicInRange .b ∧
        (small.setPeriodic .b ⟨0, 1, false, true⟩).Expiring .b) := by decide

theorem witness_TickServiceInvertsTheOutput :
    ((ticking .a).PeriodicInRange .a ∧ ((ticking .a).periodicOf .a).pend = true) ∧
      ((ticking .b).PeriodicInRange .b ∧ ((ticking .b).periodicOf .b).pend = true) := by decide

theorem witness_TickWithNothingPendingChangesNothing :
    (small.PeriodicInRange .a ∧ (small.periodicOf .a).pend = false) ∧
      (small.PeriodicInRange .b ∧ (small.periodicOf .b).pend = false) := by decide

theorem witness_PeriodicOperationsFrame :
    (∃ t, exec .clk expiring = .next t) ∧ (∃ t, exec .tickA (ticking .a) = .next t) ∧
      (∃ t, exec .tickB (ticking .b) = .next t) ∧ ∃ t, exec (.tickNop .b) (ticking .a) = .next t :=
  ⟨⟨_, rfl⟩, ⟨_, rfl⟩, ⟨_, rfl⟩, ⟨_, rfl⟩⟩

theorem witness_OutputChangesOnlyByServiceOrReset :
    (∃ t, exec .tickA (ticking .a) = .next t ∧ (t.periodicOf .a).out ≠ ((ticking .a).periodicOf .a).out) ∧
      ∃ t, exec .reset (ticking .b) = .next t ∧ (t.periodicOf .b).out ≠ ((ticking .b).periodicOf .b).out :=
  ⟨⟨_, rfl, by decide⟩, ⟨_, rfl, by decide⟩⟩

theorem witness_ExpiriesComeEveryPTimesTClocks : ConfigLegal small.cfg ∧ ConfigLegal fairStart.cfg := by decide

/-- Three words, one of them a service of engine B. -/
theorem witness_OutputFollowsTheParityOfServices :
    exec .reset expiring = .next small ∧ Stimulus.reset.word ∉ [(0x3000 : Word), 0x3000, 0x4100] ∧
      (∃ t, runWords [0x3000, 0x3000, 0x4100] small = some t) ∧ services .b [0x3000, 0x3000, 0x4100] small = 1 :=
  ⟨rfl, by decide, ⟨_, rfl⟩, by decide⟩

/-! ### Configurations -/

theorem witness_DerivedRateIsWithinHalfAStep :
    deriveDivisor [1, 2] 8 12 2 = some ⟨1, 6⟩ ∧ deriveDivisor [1, 2] 8 24 2 = some ⟨2, 6⟩ := by decide

/-- DERIVE fails for A; then pairs with `P = 0` and with `T = 0`. -/
theorem witness_ConfigurationWithoutDivisorsIsRefused :
    deriveDivisor smallConfig.prescalers smallConfig.tMax 100 (smallConfig.rate.get .a) = none ∧
      (∃ d, (some ⟨0, 1⟩ : Option Divisor) = some d ∧ (d.p = 0 ∨ d.t = 0)) ∧
      ∃ d, (some ⟨1, 0⟩ : Option Divisor) = some d ∧ (d.p = 0 ∨ d.t = 0) :=
  ⟨by decide, ⟨_, rfl, .inl rfl⟩, ⟨_, rfl, .inr rfl⟩⟩

/-- A derived pair for A and a given one for B, with `P` and `T` at least 1. -/
theorem witness_BuiltBlockIsLegalAndReset :
    1 ≤ smallConfig.capacity ∧
      deriveDivisor smallConfig.prescalers smallConfig.tMax smallConfig.clockHz (smallConfig.rate.get .a) =
        some ⟨1, 6⟩ ∧
      ∃ s, buildBlock smallConfig ⟨none, some ⟨1, 1⟩⟩ = .ok s ∧ s.divisorOf .a = ⟨1, 6⟩ :=
  ⟨by decide, by decide, _, rfl, rfl⟩

/-! ### Links and host -/

/-- A clean link, engine B's link and a link the host wrote. -/
theorem witness_WireIsExactOnlyInACleanRun :
    (∃ t, runWords [0x3000, 0x5142] (State.resetWith smallConfig) = some t) ∧
      (Link.link2 ≠ smallConfig.toggleBLink ∧ ∀ b, (Stimulus.hosttx .link2 b).word ∉ [(0x3000 : Word), 0x5142]) ∧
      Link.link3 = smallConfig.toggleBLink ∧ ∃ b, (Stimulus.hosttx .link1 b).word ∈ [(0x3000 : Word), 0x5142] :=
  ⟨⟨_, rfl⟩, ⟨by decide, by decide⟩, rfl, ⟨0x42, by decide⟩⟩

theorem witness_EnvironmentNeverChangesTheBlock : ∃ t, exec (.hosttx .link2 0x42) echoing = .next t := ⟨_, rfl⟩

/-- Idle, busy, idle with bytes held and nothing offered, and with an offer made. -/
theorem witness_LinkKeepsArrivalOrder :
    (small.echoOf .link1).st = .idle ∧ echoing.Busy .link2 ∧ Link.link3 ≠ Link.link1 ∧
      holding.RxReady .link1 ∧ holding.env.rxHold.get .link1 = [0x41, 0x42] ∧
      (∀ c, (Stimulus.rx .link1 c).word ∉ holding.script) ∧
      (envStep (.offerByte .link1) holding).script ≠ holding.script ∧
      (∃ t, stepWord (Stimulus.rx .link1 0x41).word holding = .next t) ∧
      (holdByte echoing .link2 0x41).Busy .link2 ∧ (holdByte echoing .link2 0x41).env.rxHold.get .link2 = [0x41] :=
  ⟨by decide, by decide, by decide, by decide, by decide, fun c => List.not_mem_nil, by decide, ⟨_, rfl⟩, by decide,
    by decide⟩

theorem witness_StatusReflectorReportsItsInputs : small.script = [] := rfl

/-! ### Reset and whole machine -/

theorem witness_ResetAbandonsEchoAndPendingTick :
    (ConfigLegal echoing.cfg ∧ ∃ t, exec .reset echoing = .next t) ∧
      ConfigLegal (ticking .a).cfg ∧ ∃ t, exec .reset (ticking .a) = .next t :=
  ⟨⟨by decide, ⟨_, rfl⟩⟩, by decide, ⟨_, rfl⟩⟩

/-- A waiting block and one with a word to take. -/
theorem witness_EveryStepKeepsTheInvariant :
    small.Inv ∧ step small = .next small ∧ (small.offer [0x1141]).Inv ∧
      ∃ t, step (small.offer [0x1141]) = .next t :=
  ⟨small_inv, rfl,
    { echo := fun n =>
        { range := (small_inv.echo n).range, idle_idx := (small_inv.echo n).idle_idx
          marker := (small_inv.echo n).marker, idx_le := (small_inv.echo n).idx_le
          line := (small_inv.echo n).line, no_nul := (small_inv.echo n).no_nul
          canonical := (small_inv.echo n).canonical, inside := (small_inv.echo n).inside }
      periodic := small_inv.periodic
      wire := small_inv.wire },
    ⟨_, rfl⟩⟩

theorem witness_InvariantStateNeverFaults : small.Inv := small_inv

theorem witness_EveryStepKeepsTheRanges :
    (echoing.offer [0x2200]).InRange ∧ ∃ t, step (echoing.offer [0x2200]) = .next t :=
  ⟨⟨fun n => by cases n <;> decide, fun u => by cases u <;> decide⟩, ⟨_, rfl⟩⟩

theorem witness_EveryStepKeepsMemoryCanonical :
    (twoBytes.offer [0x1163]).MemoryWf ∧ ∃ t, step (twoBytes.offer [0x1163]) = .next t :=
  ⟨fun n => by cases n <;> decide, ⟨_, rfl⟩⟩

theorem witness_ConfigurationIsFixedForLife : ∃ t, step (expiring.offer [0x3000]) = .next t := ⟨_, rfl⟩

theorem witness_OperationsLeaveTheirSurroundingsAlone :
    (∃ t, exec .reset (small.markRefusal .badUnit) = .next t) ∧ ∃ t, exec .clk expiring = .next t :=
  ⟨⟨_, rfl⟩, ⟨_, rfl⟩⟩

/-- `st = 3`, `len = C`, `idx = C`, `pre = P`, `cnt = T`. -/
theorem witness_OutOfRangeEngineFaults :
    ¬ (small.setEcho .link1 ⟨.unused, 0, 0, []⟩).EchoInRange .link1 ∧
      ¬ (small.setEcho .link1 ⟨.idle, 4, 0, []⟩).EchoInRange .link1 ∧
      ¬ (small.setEcho .link1 ⟨.echoData, 3, 4, []⟩).EchoInRange .link1 ∧
      ¬ (small.setPeriodic .a ⟨2, 0, false, false⟩).PeriodicInRange .a ∧
      ¬ (small.setPeriodic .b ⟨0, 2, true, false⟩).PeriodicInRange .b := by decide

/-- A full engine of `C = 4`, and the default capacity. -/
theorem witness_LengthsFitTheirWidth :
    fullLine.EchoInRange .link1 ∧
      ((State.resetWith { smallConfig with capacity := 256 }).EchoInRange .link1 ∧
        (State.resetWith { smallConfig with capacity := 256 }).cfg.capacity = 256) := by decide

end Sys2Proof.Tests
end

/-!
The configuration is fixed for the life of the block (spec/00_scope.md R8): what an operation's effect and a move of
the environment leave alone, and from it that the configuration never changes.
-/

namespace Sys2Proof.Machine

/-! ## Steps -/

/-- An operation's effect leaves the configuration, both marks and the rest of the script as they were. -/
theorem effectOf_frame {i : Instr} {s t : State} (h : effectOf s i = .ok t) :
    t = { t with cfg := s.cfg, refusalMark := s.refusalMark, faultMark := s.faultMark, script := s.script } := by
  cases i
  case rxTerm n =>
    obtain ⟨-, rfl⟩ := startEcho_ok.mp h
    rfl
  case rxAppend n b =>
    obtain ⟨-, rfl⟩ := appendByte_ok.mp h
    rfl
  case grantData n =>
    obtain ⟨b, -, -, rfl⟩ := sendDataByte_ok.mp h
    rfl
  all_goals cases h; rfl

theorem effectOf_cfg {i : Instr} {s t : State} (h : effectOf s i = .ok t) : t.cfg = s.cfg :=
  (congrArg State.cfg (effectOf_frame h) :)

theorem stepWord_cfg {w : Word} {s t : State} (h : stepWord w s = .next t) : t.cfg = s.cfg := by
  obtain ⟨st, i, -, -, he⟩ := stepWord_next.mp h
  exact effectOf_cfg he

theorem step_cfg {s t : State} (h : step s = .next t) : t.cfg = s.cfg := by
  obtain ⟨-, hwait⟩ | ⟨w, rest, -, hword⟩ := step_cases h
  · cases hwait
    rfl
  · exact (stepWord_cfg hword :)

/-! ## Moves of the environment -/

/-- A received byte touches nothing but the environment's state and the script (42_link_host.md R211, R212). -/
theorem receiveByte_frame (s : State) (n : Link) (b : Byte) :
    receiveByte s n b = { s with env := (receiveByte s n b).env, script := (receiveByte s n b).script } := by
  unfold receiveByte
  split
  · split <;> rfl
  · rfl

/-- A frame in error touches nothing but the environment's state and the script (R213). -/
theorem receiveErrorFrame_frame (s : State) (n : Link) :
    receiveErrorFrame s n =
      { s with env := (receiveErrorFrame s n).env, script := (receiveErrorFrame s n).script } := by
  unfold receiveErrorFrame
  split
  · next b _ => exact receiveByte_frame (nextDraw s) n b
  · rfl

/-- Offering a held byte touches nothing but the environment's state and the script (R211). -/
theorem offerHeldByte_frame (s : State) (n : Link) :
    offerHeldByte s n = { s with env := (offerHeldByte s n).env, script := (offerHeldByte s n).script } := by
  unfold offerHeldByte
  split
  · split <;> rfl
  · rfl

/-- A move of the environment touches nothing but the environment's own state and the script (R219, R221). -/
theorem envStep_frame (m : EnvMove) (s : State) :
    envStep m s = { s with env := (envStep m s).env, script := (envStep m s).script } := by
  cases m
  case receive n b => exact receiveByte_frame s n b
  case receiveError n => exact receiveErrorFrame_frame s n
  case offerByte n => exact offerHeldByte_frame s n
  case schedule st => cases st <;> rfl
  all_goals rfl

@[simp] theorem envStep_cfg (m : EnvMove) (s : State) : (envStep m s).cfg = s.cfg :=
  (congrArg State.cfg (envStep_frame m s) :)

end Sys2Proof.Machine

namespace Sys2Proof

/-- Settles O57: no effect writes the configuration, and a move of the environment writes only its own state and the
script. -/
theorem configurationIsFixedForLife : Obligations.ConfigurationIsFixedForLife :=
  ⟨fun _ _ => Machine.step_cfg, Machine.envStep_cfg⟩

end Sys2Proof

/-!
The machine right after reset (spec/10_state.md R49): what each engine holds, whatever the configuration.
-/

namespace Sys2Proof.Machine

@[simp] theorem State.resetWith_echoOf (c : Config) (n : Link) : (State.resetWith c).echoOf n = Echo.atReset :=
  PerLink.get_all Echo.atReset n

@[simp] theorem State.resetWith_periodicOf (c : Config) (u : Engine) :
    (State.resetWith c).periodicOf u = Periodic.atReset (c.outInactive.get u) := by
  cases u <;> rfl

/-- No byte of an accumulator is written after reset (R35, R49). -/
@[simp] theorem Echo.atReset_read (a : Nat) : Echo.atReset.buf.read a = none := rfl

end Sys2Proof.Machine

namespace Sys2Proof

/-- Settles O50: with any configuration every engine is at its own reset value; the reset state is the case of the
reference configuration. -/
theorem resetStateHoldsTheResetValues : Obligations.ResetStateHoldsTheResetValues := by
  unfold Obligations.ResetStateHoldsTheResetValues Machine.State.reset
  constructor
  · intro n
    rw [Machine.State.resetWith_echoOf]
    exact ⟨rfl, rfl, rfl, Machine.Echo.atReset_read⟩
  · intro u
    rw [Machine.State.resetWith_periodicOf]
    exact ⟨rfl, rfl, rfl, rfl⟩

end Sys2Proof

/-!
Which words are illegal (spec/30_encoding.md R104 to R107): the answer of the decoder on each side of its three tests,
in the order of R106.
-/

namespace Sys2Proof

open Machine (LegalUnit LegalData)

/-! ## The units of R104 -/

theorem linkOfUnit_eq_none {u : Nat} : linkOfUnit u = none ↔ ¬ (1 ≤ u ∧ u ≤ 3) := by
  match u with
  | 0 | 1 | 2 | 3 => simp [linkOfUnit]
  | v + 4 => simp [linkOfUnit]

theorem linkOfUnit_eq_some {u : Nat} (h : 1 ≤ u ∧ u ≤ 3) : ∃ n, linkOfUnit u = some n :=
  Option.ne_none_iff_exists'.mp fun hnone => linkOfUnit_eq_none.mp hnone h

theorem engineOfUnit_eq_none {u : Nat} : engineOfUnit u = none ↔ ¬ u ≤ 1 := by
  match u with
  | 0 | 1 => simp [engineOfUnit]
  | v + 2 => simp [engineOfUnit]

theorem engineOfUnit_eq_some {u : Nat} (h : u ≤ 1) : ∃ e, engineOfUnit u = some e :=
  Option.ne_none_iff_exists'.mp fun hnone => engineOfUnit_eq_none.mp hnone h

/-! ## The tests of R106 -/

theorem decodeFields_reservedKind {k u : Nat} {d : Byte} (hk : 6 ≤ k) :
    decodeFields k u d = .error .reservedKind := by
  unfold decodeFields
  split
  case h_7 => rfl
  all_goals omega

theorem decodeFields_badUnit {k u : Nat} {d : Byte} (hk : k < 6) (hu : ¬ LegalUnit k u) :
    decodeFields k u d = .error .badUnit := by
  obtain hlink | rfl | hnone : (k = 1 ∨ k = 2 ∨ k = 5) ∨ k = 4 ∨ (k = 0 ∨ k = 3) := by omega
  · have hl : linkOfUnit u = none := linkOfUnit_eq_none.mpr (by omega)
    rcases hlink with rfl | rfl | rfl <;> simp [decodeFields, hl]
  · have he : engineOfUnit u = none := engineOfUnit_eq_none.mpr (by omega)
    simp [decodeFields, he]
  · have hne : u ≠ 0 := by omega
    rcases hnone with rfl | rfl <;> simp [decodeFields, hne]

/-- Past the unit test the decoder builds a stimulus of the kind, which takes any byte (RX, HOSTTX) or 0x00 only. -/
theorem decodeFields_legalUnit {k u : Nat} {d : Byte} (hk : k < 6) (hu : LegalUnit k u) :
    ∃ st, decodeFields k u d = if k = 1 ∨ k = 5 then .ok st else withoutData d st := by
  obtain ⟨hlinks, hengines, hzero⟩ := hu
  obtain hlink | rfl | hnone : (k = 1 ∨ k = 2 ∨ k = 5) ∨ k = 4 ∨ (k = 0 ∨ k = 3) := by omega
  · obtain ⟨n, hn⟩ := linkOfUnit_eq_some (hlinks hlink)
    rcases hlink with rfl | rfl | rfl <;> simp [decodeFields, hn]
  · obtain ⟨e, he⟩ := engineOfUnit_eq_some (hengines rfl)
    simp [decodeFields, he]
  · have hu : u = 0 := hzero hnone
    rcases hnone with rfl | rfl <;> simp [decodeFields, hu]

theorem decodeFields_badData {k u : Nat} {d : Byte} (hk : k < 6) (hu : LegalUnit k u)
    (hd : ¬ LegalData k d.toNat) : decodeFields k u d = .error .badData := by
  obtain ⟨st, hst⟩ := decodeFields_legalUnit (d := d) hk hu
  obtain ⟨hkind, hne⟩ := Classical.not_imp.mp hd
  rw [hst, if_neg (by omega)]
  exact withoutData_error.mpr ⟨fun h => hne (congrArg BitVec.toNat h), rfl⟩

theorem decodeFields_legal {k u : Nat} {d : Byte} (hk : k < 6) (hu : LegalUnit k u)
    (hd : LegalData k d.toNat) : ∃ st, decodeFields k u d = .ok st := by
  obtain ⟨st, hst⟩ := decodeFields_legalUnit (d := d) hk hu
  refine ⟨st, hst.trans ?_⟩
  split
  · rfl
  · have hzero : d.toNat = 0 := hd (by omega)
    exact withoutData_ok.mpr ⟨BitVec.eq_of_toNat_eq hzero, rfl⟩

/-- Settles O4: the decoder's answers on the four sides of its tests exclude each other. -/
theorem illegalWordsAreThoseOutsideTheLegalFields : Obligations.IllegalWordsAreThoseOutsideTheLegalFields := by
  intro w
  rw [← wordKind_toNat, ← wordUnit_toNat, ← wordData_toNat]
  unfold decodeWord
  by_cases hk : 6 ≤ (wordKind w).toNat
  · simp [decodeFields_reservedKind hk, hk]
  have hlt : (wordKind w).toNat < 6 := Nat.lt_of_not_le hk
  by_cases hu : LegalUnit (wordKind w).toNat (wordUnit w).toNat
  · by_cases hd : LegalData (wordKind w).toNat (wordData w).toNat
    · obtain ⟨st, hst⟩ := decodeFields_legal hlt hu hd
      simp [hst, hlt, eq_true hu, eq_true hd]
    · simp [decodeFields_badData hlt hu hd, hlt, eq_true hu, eq_false hd]
  · simp [decodeFields_badUnit hlt hu, hlt, eq_false hu]

end Sys2Proof

/-!
Receiving a byte (spec/40_line_echo.md R130 to R134): what RX selects while the engine is busy and while it is idle,
and the state each receive operation answers.
-/

namespace Sys2Proof.Machine

/-- The word of an event that selects an operation decodes to it, and the operation answers what its effect gives. -/
theorem decodeIn_exec_of_select {st : Stimulus} {s t : State} {i : Instr} (hs : select st s = .op i)
    (he : effectOf s i = .ok t) : decodeIn st.word s = .op i ∧ exec i s = .next t :=
  ⟨(decodeIn_word st s).trans hs, (exec_of_select hs).trans (outcomeOf_next.mpr he)⟩

theorem stepWord_next_of_select {st : Stimulus} {s t : State} {i : Instr} (hs : select st s = .op i)
    (he : effectOf s i = .ok t) : stepWord st.word s = .next t :=
  (stepWord_of_select hs).trans (outcomeOf_next.mpr he)

/-! ## What RX selects -/

/-- RX on a busy engine has no step (R130). -/
theorem select_rx_busy {s : State} {n : Link} {b : Byte} (hr : s.EchoInRange n) (hb : s.Busy n) :
    select (.rx n b) s = .blocked n := by
  simp only [select, selectRx, if_pos hr, if_pos hb]

/-- RX on an idle engine: the terminator is tested before fullness (R131). -/
theorem select_rx_idle {s : State} {n : Link} {b : Byte} (hr : s.EchoInRange n) (hi : (s.echoOf n).st = .idle) :
    select (.rx n b) s =
      if b = termByte then .op (.rxTerm n)
      else if (s.echoOf n).len = s.cfg.capacity - 1 then .op (.rxDrop n b)
      else .op (.rxAppend n b) := by
  have hidle : ¬ s.Busy n := not_not.mpr hi
  simp only [select, selectRx, if_pos hr, if_neg hidle, classify]
  by_cases hterm : b = termByte
  · simp only [if_pos hterm]
  · simp only [if_neg hterm]
    obtain ⟨-, hlen, -⟩ := hr
    by_cases hfull : (s.echoOf n).len = s.cfg.capacity - 1
    · rw [if_pos hfull, if_neg (by omega)]
    · rw [if_neg hfull, if_pos (by omega)]

theorem select_rx_term {s : State} {n : Link} (hr : s.EchoInRange n) (hi : (s.echoOf n).st = .idle) :
    select (.rx n termByte) s = .op (.rxTerm n) :=
  (select_rx_idle hr hi).trans (if_pos rfl)

theorem select_rx_full {s : State} {n : Link} {b : Byte} (hr : s.EchoInRange n) (hi : (s.echoOf n).st = .idle)
    (hb : b ≠ termByte) (hfull : s.Full n) : select (.rx n b) s = .op (.rxDrop n b) := by
  rw [select_rx_idle hr hi, if_neg hb, if_pos hfull]

theorem select_rx_room {s : State} {n : Link} {b : Byte} (hr : s.EchoInRange n) (hi : (s.echoOf n).st = .idle)
    (hb : b ≠ termByte) (hroom : ¬ s.Full n) : select (.rx n b) s = .op (.rxAppend n b) := by
  rw [select_rx_idle hr hi, if_neg hb, if_neg hroom]

/-! ## What the receive operations do -/

/-- The effect of RX_TERM on an engine in range (R132). -/
theorem effectOf_rxTerm {s : State} {n : Link} (hr : s.EchoInRange n) :
    effectOf s (.rxTerm n) = .ok ((s.consume n termByte).setEcho n
      { st := .echoData, len := (s.echoOf n).len, idx := 0,
        buf := (s.echoOf n).buf.write (s.echoOf n).len markByte }) :=
  have ⟨_, hlen, _⟩ := hr
  startEcho_ok.mpr ⟨hlen, rfl⟩

/-- The effect of RX_APPEND on an engine in range (R133). -/
theorem effectOf_rxAppend {s : State} {n : Link} (hr : s.EchoInRange n) (b : Byte) :
    effectOf s (.rxAppend n b) = .ok ((s.consume n b).setEcho n
      { s.echoOf n with len := (s.echoOf n).len + 1, buf := (s.echoOf n).buf.write (s.echoOf n).len b }) :=
  have ⟨_, hlen, _⟩ := hr
  appendByte_ok.mpr ⟨hlen, rfl⟩

/-- An idle engine takes every byte (R130). -/
theorem stepWord_rx_idle {s : State} {n : Link} (hr : s.EchoInRange n) (hi : (s.echoOf n).st = .idle) (b : Byte) :
    ∃ t, stepWord (Stimulus.rx n b).word s = .next t := by
  by_cases hterm : b = termByte
  · subst hterm
    exact ⟨_, stepWord_next_of_select (select_rx_term hr hi) (effectOf_rxTerm hr)⟩
  · by_cases hfull : s.Full n
    · exact ⟨_, stepWord_next_of_select (select_rx_full hr hi hterm hfull) rfl⟩
    · exact ⟨_, stepWord_next_of_select (select_rx_room hr hi hterm hfull) (effectOf_rxAppend hr b)⟩

theorem stepWord_rx_busy {s : State} {n : Link} {b : Byte} (hr : s.EchoInRange n) (hb : s.Busy n) :
    stepWord (Stimulus.rx n b).word s = .refused (.blocked n) := by
  simp only [stepWord, decodeIn_word, select_rx_busy hr hb]

/-- A blocked word stops the run and is not consumed (R130, spec/60_exceptions.md R242). -/
theorem runScript_of_blocked {s : State} {n : Link} {w : Word} (h : stepWord w s = .refused (.blocked n))
    (ws : List Word) : runScript (w :: ws) s = .stopped (.blocked n) s (w :: ws) := by
  simp only [runScript, h]

end Sys2Proof.Machine

namespace Sys2Proof

open Machine

/-- Settles O10: RX on a busy engine selects nothing; on an idle one it selects an operation whose effect succeeds. -/
theorem busyEngineBlocksReceive : Obligations.BusyEngineBlocksReceive := by
  intro s n b ws hr
  refine ⟨fun hb => ?_, fun hi => stepWord_rx_idle hr hi b⟩
  have hstep : stepWord (Stimulus.rx n b).word s = .refused (.blocked n) := stepWord_rx_busy hr hb
  exact ⟨(decodeIn_word _ s).trans (select_rx_busy hr hb), hstep, runScript_of_blocked hstep ws⟩

/-- Settles O11: the decoder answers what RX selects on an idle engine. -/
theorem terminatorIsHonouredAtEveryFillLength : Obligations.TerminatorIsHonouredAtEveryFillLength :=
  fun s _ _ hr hi => (decodeIn_word _ s).trans (select_rx_idle hr hi)

/-- Settles O12: the MARK's index is in range, so the effect succeeds at every fill length. -/
theorem rxTermMarksTheLineAndStartsTheEcho : Obligations.RxTermMarksTheLineAndStartsTheEcho :=
  fun _ _ hr hi => decodeIn_exec_of_select (select_rx_term hr hi) (effectOf_rxTerm hr)

/-- Settles O13: an engine with room stores the byte, and `st` stays the idle it was. -/
theorem rxAppendStoresTheByteAndCountsIt : Obligations.RxAppendStoresTheByteAndCountsIt := by
  intro s n b hr hb hi hroom
  rw [← hi]
  exact decodeIn_exec_of_select (select_rx_room hr hi hb hroom.ne) (effectOf_rxAppend hr b)

/-- Settles O14: taking the byte from the link is the whole effect. -/
theorem rxDropTakesTheByteAndChangesNothing : Obligations.RxDropTakesTheByteAndChangesNothing := by
  intro s n b hr hb hi hfull
  obtain ⟨hdecode, hexec⟩ := decodeIn_exec_of_select (select_rx_full hr hi hb hfull) rfl
  exact ⟨hdecode, hexec, rfl⟩

end Sys2Proof

/-!
Sending the echo (spec/40_line_echo.md R135 to R139): how far an engine is before the end of its data, what GRANT
selects there, and the state each grant answers.
-/

namespace Sys2Proof.Machine

/-- Before the end of its data an engine that meets R37 has sent less than its line: the MARK at `len` ends the data in
the reading that stops at NUL, `len` itself in the other (R135). -/
theorem State.EchoInv.idx_lt_len {s : State} {n : Link} (hinv : s.EchoInv n) (hst : (s.echoOf n).st = .echoData)
    (hend : s.atEnd n = .ok false) : (s.echoOf n).idx < (s.echoOf n).len := by
  have hbusy : s.Busy n := by simp [hst]
  refine lt_of_le_of_ne (hinv.idx_le hbusy) fun heq => ?_
  unfold State.atEnd at hend
  split at hend
  · obtain ⟨-, -, hidx⟩ := hinv.range
    have hmark : s.memRead n (s.echoOf n).idx = .ok markByte :=
      State.memRead_ok.mpr ⟨hidx, heq ▸ hinv.marker hbusy⟩
    rw [hmark] at hend
    cases hend
  · simp [heq] at hend

/-- GRANT on an engine with data or the suffix to send: the end of the data decides which (R136, R137). -/
theorem select_grant_atEnd {s : State} {n : Link} (hr : s.EchoInRange n) (hst : (s.echoOf n).st = .echoData)
    {e : Bool} (hend : s.atEnd n = .ok e) :
    select (.grant n) s = .op (if e then .grantCr n else .grantData n) := by
  rw [select_grant hr]
  cases e <;> simp [hst, hend]

end Sys2Proof.Machine

namespace Sys2Proof

open Machine

/-- Settles O17: before the end of the data `idx < len`, so the line holds a byte at `idx` and `idx + 1` is in range. -/
theorem grantDataSendsTheNextByteOfTheLine : Obligations.GrantDataSendsTheNextByteOfTheLine := by
  intro s n hinv hst hend
  have hidx : (s.echoOf n).idx < (s.echoOf n).len := hinv.idx_lt_len hst hend
  obtain ⟨b, hread, -⟩ := hinv.line _ hidx
  obtain ⟨-, hlen, -⟩ := hinv.range
  refine ⟨b, hread, ?_⟩
  rw [← hst]
  exact decodeIn_exec_of_select (select_grant_atEnd hinv.range hst hend)
    (sendDataByte_ok.mpr ⟨b, hread, by omega, rfl⟩)

/-- Settles O18: at the end of the data GRANT selects the CR, which no fault can stop. -/
theorem grantCrSendsTheCarriageReturn : Obligations.GrantCrSendsTheCarriageReturn :=
  fun _ _ hr hst hend => decodeIn_exec_of_select (select_grant_atEnd hr hst hend) rfl

/-- Settles O20: GRANT on an idle engine selects the operation whose effect is the state itself. -/
theorem grantOnAnIdleEngineChangesNothing : Obligations.GrantOnAnIdleEngineChangesNothing :=
  fun _ _ hr hi => decodeIn_exec_of_select ((select_grant hr).trans (by rw [hi])) rfl

end Sys2Proof

/-!
The periodic engines' operations (spec/41_periodic.md R174 to R177): what CLK and TICK select on engines in range, the
state each answers, and that counting and servicing keep the ranges of R39 and R40.
-/

namespace Sys2Proof.Machine

/-! ## Counting (R174, R175) -/

/-- An expiry restarts both counters and leaves the tick pending, whether or not one was pending before (R175). -/
theorem Periodic.clock_of_expiry {d : Divisor} {p : Periodic} (hpre : p.pre = d.p - 1) (hcnt : p.cnt = d.t - 1) :
    p.clock d = { pre := 0, cnt := 0, pend := true, out := p.out } := by
  simp only [Periodic.clock, if_pos hpre, if_pos hcnt]

theorem clockBoth_periodicOf_of_expiring {s : State} {u : Engine} (h : s.Expiring u) :
    (clockBoth s).periodicOf u = { pre := 0, cnt := 0, pend := true, out := (s.periodicOf u).out } :=
  have ⟨hpre, hcnt⟩ := h
  (clockBoth_periodicOf s u).trans (Periodic.clock_of_expiry hpre hcnt)

theorem clockBoth_periodicInRange {s : State} {u : Engine} (h : s.PeriodicInRange u) :
    (clockBoth s).PeriodicInRange u := by
  obtain ⟨hpre, hcnt⟩ := h
  have hrange := Periodic.clock_range hpre hcnt
  rwa [← clockBoth_periodicOf] at hrange

/-- CLK with both engines in range. -/
theorem decodeIn_exec_clk {s : State} (ha : s.PeriodicInRange .a) (hb : s.PeriodicInRange .b) :
    decodeIn Stimulus.clk.word s = .op .clk ∧ exec .clk s = .next (clockBoth s) :=
  decodeIn_exec_of_select (select_clk ha hb) rfl

/-! ## Servicing (R176, R177) -/

@[simp] theorem serviceTick_periodicOf_same (s : State) (u : Engine) :
    (serviceTick s u).periodicOf u = { s.periodicOf u with out := !(s.periodicOf u).out, pend := false } :=
  State.setPeriodic_periodicOf_same s u _

theorem serviceTick_periodicInRange {s : State} {u : Engine} (h : s.PeriodicInRange u) :
    (serviceTick s u).PeriodicInRange u := by
  unfold State.PeriodicInRange
  rw [serviceTick_periodicOf_same]
  exact h

theorem effectOf_tickInstr (s : State) (u : Engine) : effectOf s (tickInstr u) = .ok (serviceTick s u) := by
  cases u <;> rfl

/-- TICK on an engine in range with a tick pending. -/
theorem decodeIn_exec_tick_pending {s : State} {u : Engine} (hr : s.PeriodicInRange u)
    (hp : (s.periodicOf u).pend = true) :
    decodeIn (Stimulus.tick u).word s = .op (tickInstr u) ∧ exec (tickInstr u) s = .next (serviceTick s u) :=
  decodeIn_exec_of_select ((select_tick hr).trans (if_pos hp)) (effectOf_tickInstr s u)

/-- TICK on an engine in range with nothing pending. -/
theorem decodeIn_exec_tick_idle {s : State} {u : Engine} (hr : s.PeriodicInRange u)
    (hp : (s.periodicOf u).pend = false) :
    decodeIn (Stimulus.tick u).word s = .op (.tickNop u) ∧ exec (.tickNop u) s = .next s :=
  decodeIn_exec_of_select ((select_tick hr).trans (by simp [hp])) rfl

end Sys2Proof.Machine

namespace Sys2Proof

open Machine

/-- Settles O32: CLK writes nothing but the periodic engines, and counts in each. -/
theorem clockCycleAdvancesBothEngines : Obligations.ClockCycleAdvancesBothEngines := by
  intro s ha hb
  obtain ⟨hdecode, hexec⟩ := decodeIn_exec_clk ha hb
  exact ⟨hdecode, clockBoth s, hexec, rfl, clockBoth_periodicOf s⟩

/-- Settles O33: the expiry leaves the tick pending whatever it was, so one TICK services it and the next finds the
bit clear. -/
theorem expiryIsAbsorbedByAPendingTick : Obligations.ExpiryIsAbsorbedByAPendingTick := by
  intro s u ha hb hexp
  have hr : s.PeriodicInRange u := by cases u <;> assumption
  obtain ⟨-, hclk⟩ := decodeIn_exec_clk ha hb
  have hr₁ : (clockBoth s).PeriodicInRange u := clockBoth_periodicInRange hr
  have hpend : ((clockBoth s).periodicOf u).pend = true := by rw [clockBoth_periodicOf_of_expiring hexp]
  obtain ⟨-, hservice⟩ := decodeIn_exec_tick_pending hr₁ hpend
  have hclear : ((serviceTick (clockBoth s) u).periodicOf u).pend = false := by rw [serviceTick_periodicOf_same]
  obtain ⟨hnop, -⟩ := decodeIn_exec_tick_idle (serviceTick_periodicInRange hr₁) hclear
  refine ⟨_, _, hclk, hpend, hservice, ?_, hclear, hnop⟩
  rw [serviceTick_periodicOf_same, clockBoth_periodicOf, Periodic.clock_out]

/-- Settles O34: the same service for each engine, at its own word. -/
theorem tickServiceInvertsTheOutput : Obligations.TickServiceInvertsTheOutput :=
  fun _ => ⟨decodeIn_exec_tick_pending, decodeIn_exec_tick_pending⟩

/-- Settles O35: with nothing pending TICK selects the operation whose effect is the state itself. -/
theorem tickWithNothingPendingChangesNothing : Obligations.TickWithNothingPendingChangesNothing :=
  fun _ _ => decodeIn_exec_tick_idle

end Sys2Proof

/-!
DERIVE and the building of a block (spec/41_periodic.md R171, R172; R284): DERIVE as a search of the prescaler list,
and what a built block says of its divisor pairs.
-/

namespace Sys2Proof.Machine

/-- The rounded count of prescaler `p` lies in `1 .. T_MAX` (R171). -/
def countFits (tMax f r p : Nat) : Bool := 1 ≤ roundedCount f r p ∧ roundedCount f r p ≤ tMax

@[simp] theorem countFits_eq_true {tMax f r p : Nat} :
    countFits tMax f r p = true ↔ 1 ≤ roundedCount f r p ∧ roundedCount f r p ≤ tMax :=
  decide_eq_true_iff

/-- DERIVE takes the first prescaler whose count fits, with that count. -/
theorem deriveDivisor_eq_find (prescalers : List Nat) (tMax f r : Nat) :
    deriveDivisor prescalers tMax f r =
      (prescalers.find? (countFits tMax f r)).map fun p => ⟨p, roundedCount f r p⟩ := by
  induction prescalers with
  | nil => rfl
  | cons p rest ih =>
    unfold deriveDivisor
    split
    · next h => simp [List.find?_cons_of_pos (countFits_eq_true.mpr h)]
    · next h => simp [List.find?_cons_of_neg (mt countFits_eq_true.mp h), ih]

theorem deriveDivisor_eq_none {prescalers : List Nat} {tMax f r : Nat} :
    deriveDivisor prescalers tMax f r = none ↔
      ∀ p ∈ prescalers, ¬ (1 ≤ roundedCount f r p ∧ roundedCount f r p ≤ tMax) := by
  simp only [deriveDivisor_eq_find, Option.map_eq_none_iff, List.find?_eq_none, countFits_eq_true]

theorem deriveDivisor_eq_some {prescalers : List Nat} {tMax f r : Nat} {d : Divisor} :
    deriveDivisor prescalers tMax f r = some d ↔
      prescalers.find? (countFits tMax f r) = some d.p ∧ d.t = roundedCount f r d.p := by
  rw [deriveDivisor_eq_find, Option.map_eq_some_iff]
  constructor
  · rintro ⟨p, hfind, rfl⟩
    exact ⟨hfind, rfl⟩
  · rintro ⟨hfind, ht⟩
    exact ⟨d.p, hfind, by rw [← ht]⟩

/-- An engine's pair is the one given, when it is legal, or DERIVE's when none is given (R171, R172). -/
theorem settleDivisor_ok {c : Config} {u : Engine} {given : Option Divisor} {d : Divisor} :
    settleDivisor c u given = .ok d ↔
      (given = some d ∧ 1 ≤ d.p ∧ 1 ≤ d.t) ∨
        (given = none ∧ deriveDivisor c.prescalers c.tMax c.clockHz (c.rate.get u) = some d) := by
  cases given with
  | none => cases h : deriveDivisor c.prescalers c.tMax c.clockHz (c.rate.get u) <;> simp [settleDivisor, h]
  | some g =>
    by_cases hlegal : 1 ≤ g.p ∧ 1 ≤ g.t
    · have hkeep : g = d → 1 ≤ d.p ∧ 1 ≤ d.t := fun heq => heq ▸ hlegal
      simpa [settleDivisor, hlegal] using hkeep
    · have hrefuse : g = d → ¬ (1 ≤ d.p ∧ 1 ≤ d.t) := fun heq => heq ▸ hlegal
      simpa [settleDivisor, hlegal] using hrefuse

/-- A configuration is built exactly with a capacity and a settled pair for each engine (R284). -/
theorem buildConfig_ok {c c' : Config} {given : PerEngine (Option Divisor)} :
    buildConfig c given = .ok c' ↔
      1 ≤ c.capacity ∧ ∃ ds : PerEngine Divisor,
        (∀ u, settleDivisor c u (given.get u) = .ok (ds.get u)) ∧ { c with divisor := ds } = c' := by
  constructor
  · intro h
    unfold buildConfig at h
    split at h
    · next hcap =>
      split at h
      · next da db ha hb =>
        cases h
        exact ⟨hcap, ⟨da, db⟩, fun u => by cases u <;> assumption, rfl⟩
      all_goals cases h
    · cases h
  · rintro ⟨hcap, ds, hds, rfl⟩
    have ha : settleDivisor c .a given.a = .ok ds.a := hds .a
    have hb : settleDivisor c .b given.b = .ok ds.b := hds .b
    simp only [buildConfig, if_pos hcap, ha, hb]

/-- A block is built exactly when its configuration is; it then starts from reset (R283). -/
theorem buildBlock_ok {c : Config} {given : PerEngine (Option Divisor)} {s : State} :
    buildBlock c given = .ok s ↔ ∃ c', buildConfig c given = .ok c' ∧ State.resetWith c' = s := by
  unfold buildBlock
  cases buildConfig c given <;> simp [Except.map]

/-- In a built block every engine's pair is settled. -/
theorem settleDivisor_of_buildBlock {c : Config} {given : PerEngine (Option Divisor)} {s : State}
    (h : buildBlock c given = .ok s) (u : Engine) : ∃ d, settleDivisor c u (given.get u) = .ok d := by
  obtain ⟨c', hconfig, -⟩ := buildBlock_ok.mp h
  obtain ⟨-, ds, hds, -⟩ := buildConfig_ok.mp hconfig
  exact ⟨ds.get u, hds u⟩

end Sys2Proof.Machine

namespace Sys2Proof

open Machine

/-- Settles O40: the first element a search finds is the one that fits behind a part of the list where none does. -/
theorem deriveTakesTheFirstFittingPrescaler : Obligations.DeriveTakesTheFirstFittingPrescaler := by
  intro prescalers tMax f r d
  rw [deriveDivisor_eq_some, List.find?_eq_some_iff_append]
  simp only [countFits_eq_true, Bool.not_eq_true', Bool.eq_false_iff, ne_eq]
  constructor
  · rintro ⟨⟨hfits, before, after, hsplit, hbefore⟩, ht⟩
    rw [← ht] at hfits
    obtain ⟨hone, hmax⟩ := hfits
    exact ⟨before, after, hsplit, ht, hone, hmax, hbefore⟩
  · rintro ⟨before, after, hsplit, ht, hone, hmax, hbefore⟩
    have hcount : d.t = roundedCount f r d.p := ht
    rw [hcount] at hone hmax
    exact ⟨⟨⟨hone, hmax⟩, before, after, hsplit, hbefore⟩, hcount⟩

/-- Settles O41: the search fails exactly when nothing fits, and a built block has a legal pair for each engine, given
or derived. -/
theorem configurationWithoutDivisorsIsRefused : Obligations.ConfigurationWithoutDivisorsIsRefused := by
  intro c given
  refine ⟨fun f r => deriveDivisor_eq_none, fun u hmissing => ?_⟩
  cases hbuild : buildBlock c given with
  | error e => exact ⟨e, rfl⟩
  | ok s =>
    exfalso
    obtain ⟨d, hd⟩ := settleDivisor_of_buildBlock hbuild u
    obtain ⟨hgiven, hp, ht⟩ | ⟨hgiven, hderive⟩ := settleDivisor_ok.mp hd
    · obtain ⟨hnone, -⟩ | ⟨g, hg, hzero⟩ := hmissing
      · simp [hgiven] at hnone
      · obtain rfl : d = g := Option.some.inj (hgiven.symm.trans hg)
        omega
    · obtain ⟨-, hfail⟩ | ⟨g, hg, -⟩ := hmissing
      · simp [hderive] at hfail
      · simp [hgiven] at hg

end Sys2Proof

/-!
HOSTTX (spec/42_link_host.md R215): it is selected in every state, whatever the engines do, and its effect is the
host's write.
-/

namespace Sys2Proof.Machine

/-- HOSTTX tests no engine: its event selects it in every state. -/
theorem select_hosttx (s : State) (n : Link) (b : Byte) : select (.hosttx n b) s = .op (.hosttx n b) := rfl

theorem effectOf_hosttx (s : State) (n : Link) (b : Byte) : effectOf s (.hosttx n b) = .ok (s.hostWrite n b) := rfl

end Sys2Proof.Machine

namespace Sys2Proof

open Machine

/-- Settles O44: the state asked for is the host's write, the whole effect of the operation that HOSTTX always
selects. -/
theorem hostByteIsLoggedAndTouchesNoEngine : Obligations.HostByteIsLoggedAndTouchesNoEngine :=
  fun s n b => decodeIn_exec_of_select (select_hosttx s n b) (effectOf_hosttx s n b)

end Sys2Proof

/-!
RESET (spec/70_reset_and_hazards.md R280): it is selected in every state, and leaves each engine what R49 gives it.
-/

namespace Sys2Proof.Machine

/-- RESET tests no engine: its event selects it in every state. -/
theorem select_resetEvent (s : State) : select .reset s = .op .reset := rfl

theorem effectOf_reset (s : State) : effectOf s .reset = .ok (resetBlock s) := rfl

theorem resetWord_eq_zero : Stimulus.reset.word = 0x0000 := by decide

/-- After RESET an echo engine is at its reset value. -/
theorem resetBlock_echoOf_eq_atReset (s : State) (n : Link) : (resetBlock s).echoOf n = Echo.atReset :=
  resetBlock_echoOf s n

/-- After RESET a periodic engine is at its reset value for the configured inactive level. -/
theorem resetBlock_periodicOf_eq_atReset (s : State) (u : Engine) :
    (resetBlock s).periodicOf u = Periodic.atReset (s.cfg.outInactive.get u) :=
  resetBlock_periodicOf s u

/-- RESET writes nothing but the engines. -/
theorem resetBlock_frame (s : State) :
    resetBlock s = { s with echo := (resetBlock s).echo, periodic := (resetBlock s).periodic } := rfl

end Sys2Proof.Machine

namespace Sys2Proof

open Machine

/-- Settles O49: RESET is always selected and its effect cannot fail, so the next state is the reset block, with every
engine at its value of R49. -/
theorem resetGivesEveryEngineItsResetValues : Obligations.ResetGivesEveryEngineItsResetValues := by
  intro s
  obtain ⟨hdecode, hexec⟩ := decodeIn_exec_of_select (select_resetEvent s) (effectOf_reset s)
  rw [resetWord_eq_zero] at hdecode
  refine ⟨hdecode, resetBlock s, hexec, resetBlock_frame s, fun n => ?_, fun u => ?_⟩
  · rw [resetBlock_echoOf_eq_atReset]
    exact ⟨rfl, rfl, rfl, Echo.atReset_read⟩
  · rw [resetBlock_periodicOf_eq_atReset]
    exact ⟨rfl, rfl, rfl, rfl⟩

end Sys2Proof

/-!
Decoding and encoding agree (spec/30_encoding.md R102 to R106): a word is its three fields, the decoder accepts a word
exactly as the word of the event it answers, and an operation is selected exactly by its event in its own states.
-/

namespace Sys2Proof

/-- A word is known by its three fields. -/
theorem word_eq_packWord {w : Word} {k u : BitVec 4} {d : Byte} :
    w = packWord k u d ↔
      w.toNat / 4096 = k.toNat ∧ w.toNat / 256 % 16 = u.toNat ∧ w.toNat % 256 = d.toNat := by
  rw [← wordKind_toNat, ← wordUnit_toNat, ← wordData_toNat]
  constructor
  · rintro rfl
    simp
  · rintro ⟨hk, hu, hd⟩
    apply word_ext
    · simpa using BitVec.eq_of_toNat_eq hk
    · simpa using BitVec.eq_of_toNat_eq hu
    · simpa using BitVec.eq_of_toNat_eq hd

theorem unitOfLink_of_linkOfUnit {u : BitVec 4} {n : Link} (h : linkOfUnit u.toNat = some n) : unitOfLink n = u := by
  apply BitVec.eq_of_toNat_eq
  unfold linkOfUnit at h
  split at h
  case h_4 => cases h
  all_goals cases h; simp_all [unitOfLink]

theorem unitOfEngine_of_engineOfUnit {u : BitVec 4} {e : Engine} (h : engineOfUnit u.toNat = some e) :
    unitOfEngine e = u := by
  apply BitVec.eq_of_toNat_eq
  unfold engineOfUnit at h
  split at h
  case h_3 => cases h
  all_goals cases h; simp_all [unitOfEngine]

/-- The fields the decoder accepts are those of the answered event's word. -/
theorem word_of_decodeFields {k u : BitVec 4} {d : Byte} {st : Stimulus}
    (h : decodeFields k.toNat u.toNat d = .ok st) : st.word = packWord k u d := by
  generalize hk : k.toNat = kind at h
  have hkind : k = BitVec.ofNat 4 kind := by simp [← hk]
  subst hkind
  unfold decodeFields at h
  split at h
  case h_7 => cases h
  case h_1 | h_4 =>
    split at h
    · next hu =>
      obtain ⟨rfl, rfl⟩ := withoutData_ok.mp h
      have hzero : u = 0 := BitVec.eq_of_toNat_eq hu
      rw [hzero]
      rfl
    · cases h
  case h_2 | h_6 =>
    split at h
    · next n hn =>
      cases h
      rw [← unitOfLink_of_linkOfUnit hn]
      rfl
    · cases h
  case h_3 =>
    split at h
    · next n hn =>
      obtain ⟨rfl, rfl⟩ := withoutData_ok.mp h
      rw [← unitOfLink_of_linkOfUnit hn]
      rfl
    · cases h
  case h_5 =>
    split at h
    · next e he =>
      obtain ⟨rfl, rfl⟩ := withoutData_ok.mp h
      rw [← unitOfEngine_of_engineOfUnit he]
      rfl
    · cases h

/-- A word carries an event exactly when it is the event's word. -/
theorem decodeWord_ok {w : Word} {st : Stimulus} : decodeWord w = .ok st ↔ w = st.word := by
  constructor
  · intro h
    rw [word_of_decodeFields h]
    apply word_ext <;> simp
  · rintro rfl
    exact decodeWord_word st

theorem Stimulus.word_injective : Function.Injective Stimulus.word := fun st _ h =>
  Except.ok.inj ((decodeWord_word st).symm.trans (decodeWord_ok.mpr h))

@[simp] theorem Stimulus.word_inj {st st' : Stimulus} : st.word = st'.word ↔ st = st' :=
  Stimulus.word_injective.eq_iff

end Sys2Proof

namespace Sys2Proof.Machine

/-- What decodes to an operation in a state is the word of an event that selects the operation there. -/
theorem decodeIn_op {w : Word} {s : State} {i : Instr} :
    decodeIn w s = .op i ↔ ∃ st, w = st.word ∧ select st s = .op i := by
  unfold decodeIn
  cases hd : decodeWord w with
  | error r =>
    simp only
    refine ⟨(by intro h; cases h), ?_⟩
    rintro ⟨st, rfl, -⟩
    simp [decodeWord_word] at hd
  | ok st =>
    obtain rfl := decodeWord_ok.mp hd
    simp

/-- In a state with the operation's engines in range, the row's condition selects it (30_encoding.md R106). -/
theorem select_of_condition {i : Instr} {s : State} (hwf : i.WellFormed) (hr : i.EnginesInRange s)
    (hc : i.Condition s) : select i.stimulus s = .op i := by
  cases i with
  | reset => rfl
  | hosttx n b => rfl
  | rxTerm n => exact select_rx_term hr hc
  | rxAppend n b =>
    obtain ⟨hidle, hroom⟩ := hc
    exact select_rx_room hr hidle hwf hroom.ne
  | rxDrop n b =>
    obtain ⟨hidle, hfull⟩ := hc
    exact select_rx_full hr hidle hwf hfull
  | grantData n =>
    obtain ⟨hst, hend⟩ := hc
    exact select_grant_atEnd hr hst hend
  | grantCr n =>
    obtain ⟨hst, hend⟩ := hc
    exact select_grant_atEnd hr hst hend
  | grantLf n => exact (select_grant hr).trans (by rw [show (s.echoOf n).st = .echoLf from hc])
  | grantIdle n => exact (select_grant hr).trans (by rw [show (s.echoOf n).st = .idle from hc])
  | clk =>
    obtain ⟨ha, hb⟩ := hr
    exact select_clk ha hb
  | tickA => exact (select_tick hr).trans (if_pos hc)
  | tickB => exact (select_tick hr).trans (if_pos hc)
  | tickNop u => exact (select_tick hr).trans (by rw [show (s.periodicOf u).pend = false from hc]; rfl)

end Sys2Proof.Machine

namespace Sys2Proof

open Machine

/-- Settles O1: the word carries the operation's event, and the event selects the operation where its row's condition
holds. -/
theorem encodedOperationDecodesToItself : Obligations.EncodedOperationDecodesToItself :=
  fun _ s hwf hr hc => (decodeIn_word _ s).trans (select_of_condition hwf hr hc)

/-- Settles O2: the word is that of the event it carries, which is the event of the operation selected. -/
theorem decodedOperationEncodesToItsWord : Obligations.DecodedOperationEncodesToItsWord := by
  intro w s i h
  obtain ⟨st, rfl, hselect⟩ := decodeIn_op.mp h
  obtain ⟨rfl, hwf, hc, -⟩ := select_op hselect
  exact ⟨rfl, hwf, hc⟩

/-- Settles O3: ten words, each decoded. -/
theorem sampleWordsDecodeAsTabulated : Obligations.SampleWordsDecodeAsTabulated := by
  unfold Obligations.SampleWordsDecodeAsTabulated
  decide

/-- Settles O5: a word carries an event exactly when it is the event's word, and a word is known by its fields. -/
theorem legalWordCarriesTheEventOfItsKind : Obligations.LegalWordCarriesTheEventOfItsKind := by
  intro w n u b
  simp only [decodeWord_ok]
  exact ⟨Iff.rfl, word_eq_packWord, word_eq_packWord, Iff.rfl, word_eq_packWord, word_eq_packWord⟩

end Sys2Proof

/-!
Outcomes of a word, of a step and of the script runner (spec/30_encoding.md R106, R107; spec/60_exceptions.md R242):
what the word decodes to fixes the outcome, and the runner's marks only ever go from unset to set.
-/

namespace Sys2Proof.Machine

/-! ## One step -/

/-- A word that decodes to an operation has the operation's effect. -/
theorem stepWord_of_op {w : Word} {s : State} {i : Instr} (h : decodeIn w s = .op i) :
    stepWord w s = outcomeOf (effectOf s i) := by
  obtain ⟨st, rfl, hselect⟩ := decodeIn_op.mp h
  exact stepWord_of_select hselect

/-- A word with a next state decodes to an operation that answers it. -/
theorem exec_of_stepWord {w : Word} {s t : State} (h : stepWord w s = .next t) :
    ∃ i, decodeIn w s = .op i ∧ exec i s = .next t := by
  obtain ⟨st, i, hd, hselect, heffect⟩ := stepWord_next.mp h
  obtain rfl := decodeWord_ok.mp hd
  exact ⟨i, decodeIn_exec_of_select hselect heffect⟩

theorem stepWord_of_error {w : Word} {r : WordRefusal} (h : decodeWord w = .error r) (s : State) :
    decodeIn w s = .refuse r ∧ stepWord w s = .refused (.illegalWord r) := by
  have hin : decodeIn w s = .refuse r := by simp only [decodeIn, h]
  exact ⟨hin, by simp only [stepWord, hin]⟩

theorem step_of_script {s : State} {w : Word} {rest : List Word} (h : s.script = w :: rest) :
    step s = stepWord w { s with script := rest } := by
  simp only [step, State.fetch, h]

theorem step_of_no_script {s : State} (h : s.script = []) : step s = .next s := by
  simp only [step, State.fetch, h]

/-- A word is never refused for an operation it does not select: what it decodes to is selected. -/
theorem stepWord_ne_notSelected (w : Word) (s : State) (i : Instr) :
    stepWord w s ≠ .refused (.notSelected i) := by
  cases hd : decodeIn w s with
  | op j =>
    rw [stepWord_of_op hd]
    exact outcomeOf_refused
  | blocked n => simp [stepWord, hd]
  | refuse r => simp [stepWord, hd]
  | fault f => simp [stepWord, hd]

/-! ## The runner's marks -/

/-- The state in which a script ends or stops. -/
def RunEnd.state : RunEnd → State
  | .done s => s
  | .stopped _ s _ => s

theorem stepWord_marks {w : Word} {s t : State} (h : stepWord w s = .next t) :
    t.refusalMark = s.refusalMark ∧ t.faultMark = s.faultMark := by
  obtain ⟨i, -, hexec⟩ := exec_of_stepWord h
  obtain ⟨-, -, -, heffect⟩ := exec_next_cases hexec
  have hframe := effectOf_frame heffect
  exact ⟨(congrArg State.refusalMark hframe :), (congrArg State.faultMark hframe :)⟩

/-- The runner keeps a set refusal mark. -/
theorem runScript_refusalMark {r : WordRefusal} (ws : List Word) {s : State} (h : s.refusalMark = some r) :
    (runScript ws s).state.refusalMark = some r := by
  induction ws generalizing s with
  | nil => exact h
  | cons w ws ih =>
    unfold runScript
    split
    · next t hnext => exact ih ((stepWord_marks hnext).1.trans h)
    · exact ih (by simp [h])
    · exact h
    · exact ih h

/-- The runner keeps a set fault mark. -/
theorem runScript_faultMark {f : Fault} (ws : List Word) {s : State} (h : s.faultMark = some f) :
    (runScript ws s).state.faultMark = some f := by
  induction ws generalizing s with
  | nil => exact h
  | cons w ws ih =>
    unfold runScript
    split
    · next t hnext => exact ih ((stepWord_marks hnext).2.trans h)
    · exact ih h
    · exact h
    · exact ih (by simp [h])

/-- An illegal word leaves the refusal mark set, whatever follows it (R107). -/
theorem runScript_refusalMark_of_error {w : Word} {r : WordRefusal} (h : decodeWord w = .error r)
    (ws : List Word) (s : State) :
    runScript (w :: ws) s = runScript ws (s.markRefusal r) ∧
      (runScript (w :: ws) s).state.refusalMark ≠ none := by
  have hrun : runScript (w :: ws) s = runScript ws (s.markRefusal r) := by
    simp only [runScript, (stepWord_of_error h s).2]
  obtain ⟨r', hmark⟩ : ∃ r', (s.markRefusal r).refusalMark = some r' := by
    cases hs : s.refusalMark <;> simp [hs]
  refine ⟨hrun, ?_⟩
  rw [hrun, runScript_refusalMark ws hmark]
  simp

end Sys2Proof.Machine

namespace Sys2Proof

open Machine

/-- A word with a field outside R104 or R105 carries no event. -/
theorem decodeWord_error_of_illegal {w : Word}
    (h : 6 ≤ w.toNat / 4096 ∨ ¬ LegalUnit (w.toNat / 4096) (w.toNat / 256 % 16) ∨
      ¬ LegalData (w.toNat / 4096) (w.toNat % 256)) : ∃ r, decodeWord w = .error r := by
  obtain ⟨hkind, hunit, hdata⟩ := illegalWordsAreThoseOutsideTheLegalFields w
  by_cases hk : 6 ≤ w.toNat / 4096
  · exact ⟨_, hkind.mpr hk⟩
  · by_cases hu : LegalUnit (w.toNat / 4096) (w.toNat / 256 % 16)
    · have hd := (h.resolve_left hk).resolve_left (not_not.mpr hu)
      exact ⟨_, hdata.mpr ⟨not_le.mp hk, hu, hd⟩⟩
    · exact ⟨_, hunit.mpr ⟨not_le.mp hk, hu⟩⟩

/-- Settles O6: such a word is refused with the decoder's reason, and the runner keeps the mark it sets. -/
theorem illegalWordIsRefusedAndMarked : Obligations.IllegalWordIsRefusedAndMarked := by
  intro w ws s hillegal
  obtain ⟨r, hr⟩ := decodeWord_error_of_illegal hillegal
  obtain ⟨hdecode, hstep⟩ := stepWord_of_error hr s
  obtain ⟨hrun, hmark⟩ := runScript_refusalMark_of_error hr ws s
  refine ⟨r, hr, hdecode, hstep, hrun, rfl, fun t hdone => ?_, fun x t rest hstopped => ?_⟩
  · rwa [hdone] at hmark
  · rwa [hstopped] at hmark

/-- Settles O7: the runner keeps a set mark up to the state it ends or stops in. -/
theorem marksAreNeverCleared : Obligations.MarksAreNeverCleared := by
  intro ws s t hend
  obtain rfl : (runScript ws s).state = t := by
    rcases hend with h | ⟨x, rest, h⟩ <;> rw [h] <;> rfl
  exact ⟨fun r => runScript_refusalMark ws, fun f => runScript_faultMark ws⟩

/-- Settles O8: the step is the word's outcome, which is read off what the word decodes to. -/
theorem stepRunsTheDecodedOperation : Obligations.StepRunsTheDecodedOperation := by
  intro s w rest
  refine ⟨fun hscript => ?_, step_of_no_script⟩
  rw [step_of_script hscript]
  unfold stepWord
  exact ⟨fun i h => by rw [h], fun n h => by rw [h], fun r h => by rw [h], fun f h => by rw [h]⟩

/-- Settles O9: a step that is refused is refused by its word. -/
theorem stepNeverRunsAnUnselectedOperation : Obligations.StepNeverRunsAnUnselectedOperation := by
  intro s i h
  obtain ⟨-, hwait⟩ | ⟨w, rest, -, hword⟩ := step_cases h
  · cases hwait
  · exact stepWord_ne_notSelected w _ i hword

end Sys2Proof

/-!
What one operation does (spec/40_line_echo.md sections 1 and 2, spec/41_periodic.md section 2, spec/42_link_host.md
R215): the state each answers, in a few shapes with their frames, and the values an engine can hold after it together
with the guards the operation was selected under.
-/

namespace Sys2Proof.Machine

theorem effectOf_of_exec {i : Instr} {s t : State} (h : exec i s = .next t) : effectOf s i = .ok t :=
  (exec_next.mp h).2

theorem exec_cfg {i : Instr} {s t : State} (h : exec i s = .next t) : t.cfg = s.cfg :=
  effectOf_cfg (effectOf_of_exec h)

@[simp] theorem State.setEcho_self (s : State) (n : Link) : s.setEcho n (s.echoOf n) = s := by
  cases n <;> rfl

/-! ## RESET and HOSTTX -/

theorem exec_reset_next {s t : State} (h : exec .reset s = .next t) : t = resetBlock s :=
  (Except.ok.inj (effectOf_of_exec h)).symm

theorem exec_hosttx_next {n : Link} {b : Byte} {s t : State} (h : exec (.hosttx n b) s = .next t) :
    t = s.hostWrite n b :=
  (Except.ok.inj (effectOf_of_exec h)).symm

/-! ## Receiving -/

/-- A receive operation of link `n` that takes byte `b` and leaves `e` in the engine. -/
def receiving (s : State) (n : Link) (b : Byte) (e : Echo) : State := (s.consume n b).setEcho n e

/-- The frame that every receive operation has. -/
theorem receiving_frame {s t : State} {n : Link} {b : Byte} {e : Echo} (ht : t = receiving s n b e) :
    t = { s with echo := t.echo, env := { s.env with rxHold := t.env.rxHold } } ∧
      (∀ m, m ≠ n → t.echoOf m = s.echoOf m ∧ t.env.rxHold.get m = s.env.rxHold.get m) ∧
      (∀ rest, s.env.rxHold.get n = b :: rest → t.env.rxHold.get n = rest) ∧
      t.env.rxHold.get n = takeOffered b (s.env.rxHold.get n) := by
  subst ht
  refine ⟨rfl, fun m hm => ?_, fun rest hrest => ?_, ?_⟩
  · simp [receiving, hm]
  · simp [receiving, hrest]
  · simp [receiving]

@[simp] theorem receiving_echoOf (s : State) (n : Link) (b : Byte) (e : Echo) : (receiving s n b e).echoOf n = e :=
  State.setEcho_echoOf_same _ n e

theorem exec_rxTerm_next {n : Link} {s t : State} (h : exec (.rxTerm n) s = .next t) :
    t = receiving s n termByte
      { st := .echoData, len := (s.echoOf n).len, idx := 0,
        buf := (s.echoOf n).buf.write (s.echoOf n).len markByte } := by
  obtain ⟨-, ht⟩ := startEcho_ok.mp (effectOf_of_exec h)
  exact ht

theorem exec_rxAppend_next {n : Link} {b : Byte} {s t : State} (h : exec (.rxAppend n b) s = .next t) :
    t = receiving s n b
      { s.echoOf n with
        len := (s.echoOf n).len + 1
        buf := (s.echoOf n).buf.write (s.echoOf n).len b } := by
  obtain ⟨-, ht⟩ := appendByte_ok.mp (effectOf_of_exec h)
  exact ht

theorem exec_rxDrop_next {n : Link} {b : Byte} {s t : State} (h : exec (.rxDrop n b) s = .next t) :
    t = s.consume n b :=
  (Except.ok.inj (effectOf_of_exec h)).symm

/-- RX_DROP leaves in the engine what it held. -/
theorem consume_eq_receiving (s : State) (n : Link) (b : Byte) :
    s.consume n b = receiving s n b (s.echoOf n) :=
  (State.setEcho_self (s.consume n b) n).symm

/-! ## Transmitting -/

/-- A grant of link `n` that sends byte `b` and leaves `e` in the engine. -/
def transmitting (s : State) (n : Link) (b : Byte) (e : Echo) : State := (s.emit n b).setEcho n e

/-- The frame that every grant which sends a byte has, when it leaves the accumulator as it was. -/
theorem transmitting_frame {s t : State} {n : Link} {b : Byte} {e : Echo} (ht : t = transmitting s n b e)
    (hbuf : e.buf = (s.echoOf n).buf) :
    t = { s with echo := t.echo, txLog := t.txLog } ∧
      (∀ m, m ≠ n → t.echoOf m = s.echoOf m ∧ t.txLog.get m = s.txLog.get m) ∧
      ∀ m a, (t.echoOf m).buf.read a = (s.echoOf m).buf.read a := by
  subst ht
  refine ⟨rfl, fun m hm => ?_, fun m a => ?_⟩
  · simp [transmitting, hm]
  · by_cases hm : m = n
    · subst hm
      simp [transmitting, hbuf]
    · simp [transmitting, hm]

@[simp] theorem transmitting_echoOf (s : State) (n : Link) (b : Byte) (e : Echo) :
    (transmitting s n b e).echoOf n = e :=
  State.setEcho_echoOf_same _ n e

theorem transmitting_txLog (s : State) (n m : Link) (b : Byte) (e : Echo) :
    (transmitting s n b e).txLog.get m = if m = n then s.txLog.get n ++ [b] else s.txLog.get m :=
  State.emit_txLog_get s n m b

theorem exec_grantData_next {n : Link} {s t : State} (h : exec (.grantData n) s = .next t) :
    ∃ b, (s.echoOf n).idx + 1 < s.cfg.capacity ∧
      t = transmitting s n b { s.echoOf n with idx := (s.echoOf n).idx + 1 } := by
  obtain ⟨b, -, hidx, ht⟩ := sendDataByte_ok.mp (effectOf_of_exec h)
  exact ⟨b, hidx, ht⟩

theorem exec_grantCr_next {n : Link} {s t : State} (h : exec (.grantCr n) s = .next t) :
    t = transmitting s n termByte { s.echoOf n with st := .echoLf } :=
  (Except.ok.inj (effectOf_of_exec h)).symm

theorem exec_grantLf_next {n : Link} {s t : State} (h : exec (.grantLf n) s = .next t) :
    t = transmitting s n lfByte { s.echoOf n with len := 0, idx := 0, st := .idle } :=
  (Except.ok.inj (effectOf_of_exec h)).symm

theorem exec_grantIdle_next {n : Link} {s t : State} (h : exec (.grantIdle n) s = .next t) : t = s :=
  (Except.ok.inj (effectOf_of_exec h)).symm

/-! ## Counting and ticking -/

theorem exec_clk_next {s t : State} (h : exec .clk s = .next t) : t = clockBoth s :=
  (Except.ok.inj (effectOf_of_exec h)).symm

theorem exec_tickNop_next {u : Engine} {s t : State} (h : exec (.tickNop u) s = .next t) : t = s :=
  (Except.ok.inj (effectOf_of_exec h)).symm

theorem serviceTick_periodicOf_other (s : State) {u v : Engine} (h : v ≠ u) :
    (serviceTick s u).periodicOf v = s.periodicOf v :=
  State.setPeriodic_periodicOf_other s h _

/-- A tick's service as one operation of both engines. -/
theorem exec_tickInstr_next {s t : State} {u : Engine} (h : exec (tickInstr u) s = .next t) :
    (s.periodicOf u).pend = true ∧ t = serviceTick s u := by
  obtain ⟨-, hpend, -, he⟩ := exec_next_cases h
  rw [effectOf_tickInstr] at he
  exact ⟨by cases u <;> exact hpend, (Except.ok.inj he).symm⟩

/-- A service leaves the counters of both engines and all of the other engine. -/
theorem serviceTick_frame (s : State) (u : Engine) :
    serviceTick s u = { s with periodic := (serviceTick s u).periodic } ∧
      (∀ v, v ≠ u → (serviceTick s u).periodicOf v = s.periodicOf v) ∧
      ∀ v, ((serviceTick s u).periodicOf v).pre = (s.periodicOf v).pre ∧
        ((serviceTick s u).periodicOf v).cnt = (s.periodicOf v).cnt := by
  refine ⟨rfl, fun v hv => serviceTick_periodicOf_other s hv, fun v => ?_⟩
  by_cases hv : v = u
  · subst hv
    simp
  · simp [serviceTick_periodicOf_other s hv]

/-! ## The shapes of a next state -/

/-- The states operation `i` can answer in `s`. -/
inductive NextState (s : State) : Instr → State → Prop where
  | reset : NextState s .reset (resetBlock s)
  | receive {i : Instr} {n : Link} {b : Byte} (e : Echo) (hi : i.stimulus = .rx n b) :
    NextState s i (receiving s n b e)
  | transmit {i : Instr} {n : Link} (b : Byte) (e : Echo) (hi : i = .grantData n ∨ i = .grantCr n ∨ i = .grantLf n) :
    NextState s i (transmitting s n b e)
  | grantIdle (n : Link) : NextState s (.grantIdle n) s
  | clk : NextState s .clk (clockBoth s)
  | tick (u : Engine) : NextState s (tickInstr u) (serviceTick s u)
  | tickNop (u : Engine) : NextState s (.tickNop u) s
  | hosttx (n : Link) (b : Byte) : NextState s (.hosttx n b) (s.hostWrite n b)

theorem exec_nextState {i : Instr} {s t : State} (h : exec i s = .next t) : NextState s i t := by
  cases i
  case reset =>
    obtain rfl := exec_reset_next h
    exact .reset
  case rxTerm n =>
    obtain rfl := exec_rxTerm_next h
    exact .receive _ rfl
  case rxAppend n b =>
    obtain rfl := exec_rxAppend_next h
    exact .receive _ rfl
  case rxDrop n b =>
    obtain rfl := (exec_rxDrop_next h).trans (consume_eq_receiving s n b)
    exact .receive _ rfl
  case grantData n =>
    obtain ⟨b, -, rfl⟩ := exec_grantData_next h
    exact .transmit b _ (.inl rfl)
  case grantCr n =>
    obtain rfl := exec_grantCr_next h
    exact .transmit _ _ (.inr (.inl rfl))
  case grantLf n =>
    obtain rfl := exec_grantLf_next h
    exact .transmit _ _ (.inr (.inr rfl))
  case grantIdle n =>
    obtain rfl := exec_grantIdle_next h
    exact .grantIdle n
  case clk =>
    obtain rfl := exec_clk_next h
    exact .clk
  case tickA =>
    obtain ⟨-, rfl⟩ := exec_tickInstr_next (u := .a) h
    exact .tick .a
  case tickB =>
    obtain ⟨-, rfl⟩ := exec_tickInstr_next (u := .b) h
    exact .tick .b
  case tickNop u =>
    obtain rfl := exec_tickNop_next h
    exact .tickNop u
  case hosttx n b =>
    obtain rfl := exec_hosttx_next h
    exact .hosttx n b

theorem tickInstr_stimulus (u : Engine) : (tickInstr u).stimulus = .tick u := by
  cases u <;> rfl

/-- Only HOSTTX writes what the host sent and the havoc marks (spec/42_link_host.md R215, R216). -/
theorem exec_host_cases {i : Instr} {s t : State} (h : exec i s = .next t) :
    (∃ n b, i = .hosttx n b ∧ t = s.hostWrite n b) ∨
      ((∀ n b, i ≠ .hosttx n b) ∧ t.hostLog = s.hostLog ∧ t.wireHavoc = s.wireHavoc) := by
  cases exec_nextState h with
  | hosttx n b => exact .inl ⟨n, b, rfl, rfl⟩
  | receive e hi =>
    refine .inr ⟨?_, rfl, rfl⟩
    rintro n b rfl
    cases hi
  | transmit b e hi => exact .inr ⟨by rcases hi with rfl | rfl | rfl <;> simp, rfl, rfl⟩
  | tick u => exact .inr ⟨by cases u <;> simp [tickInstr], rfl, rfl⟩
  | reset | grantIdle | clk | tickNop => exact .inr ⟨by simp, rfl, rfl⟩

/-- The sent bytes of link `n` grow only by a data, CR or LF grant of the link. -/
theorem exec_txLog_cases {i : Instr} {s t : State} (h : exec i s = .next t) (n : Link) :
    ((i = .grantData n ∨ i = .grantCr n ∨ i = .grantLf n) ∧ ∃ b, t.txLog.get n = s.txLog.get n ++ [b]) ∨
      ((i ≠ .grantData n ∧ i ≠ .grantCr n ∧ i ≠ .grantLf n) ∧ t.txLog.get n = s.txLog.get n) := by
  cases exec_nextState h with
  | @transmit _ m b e hi =>
    rw [transmitting_txLog]
    by_cases hnm : n = m
    · subst hnm
      exact .inl ⟨hi, b, if_pos rfl⟩
    · exact .inr ⟨by rcases hi with rfl | rfl | rfl <;> simp [Ne.symm hnm], if_neg hnm⟩
  | receive e hi =>
    have hother (j : Instr) (hj : j.stimulus = .grant n) : i ≠ j := by
      rintro rfl
      cases hi.symm.trans hj
    exact .inr ⟨⟨hother _ rfl, hother _ rfl, hother _ rfl⟩, rfl⟩
  | tick u => exact .inr ⟨by cases u <;> simp [tickInstr], rfl⟩
  | reset | grantIdle | clk | tickNop | hosttx => exact .inr ⟨by simp, rfl⟩

/-- Of the environment an operation changes what links hold, and only the RX operations of a link change its holding. -/
theorem exec_env {i : Instr} {s t : State} (h : exec i s = .next t) :
    t.env = { s.env with rxHold := t.env.rxHold } ∧
      ∀ n, t.env.rxHold.get n ≠ s.env.rxHold.get n →
        i = .rxTerm n ∨ ∃ b, i = .rxAppend n b ∨ i = .rxDrop n b := by
  cases exec_nextState h with
  | @receive _ m b e hi =>
    obtain ⟨-, hother, -, -⟩ := receiving_frame (s := s) (n := m) (b := b) (e := e) rfl
    refine ⟨rfl, fun n hne => ?_⟩
    obtain rfl : n = m := by_contra fun hnm => hne (hother n hnm).2
    cases i <;> cases hi <;> simp
  | reset | transmit | grantIdle | clk | tick | tickNop | hosttx => exact ⟨rfl, fun n hne => absurd rfl hne⟩

end Sys2Proof.Machine

/-!
Every step keeps the ranges (spec/10_state.md R38), the canonical form of memory (spec/20_memory.md R70) and the
invariants of R37: what can be left in an engine keeps the engine's part.
-/

namespace Sys2Proof.Machine

/-! ## Echo engines -/

/-- The values operation `i` can leave in echo engine `n` (R132 to R139, R280). -/
inductive EchoNext (s : State) (n : Link) : Instr → Echo → Prop where
  | same (i : Instr) : EchoNext s n i (s.echoOf n)
  | reset : EchoNext s n .reset Echo.atReset
  | term (hr : s.EchoInRange n) (hst : (s.echoOf n).st = .idle) :
    EchoNext s n (.rxTerm n)
      { st := .echoData, len := (s.echoOf n).len, idx := 0,
        buf := (s.echoOf n).buf.write (s.echoOf n).len markByte }
  | append (b : Byte) (hr : s.EchoInRange n) (hb : b ≠ termByte) (hst : (s.echoOf n).st = .idle)
    (hroom : (s.echoOf n).len < s.cfg.capacity - 1) :
    EchoNext s n (.rxAppend n b)
      { s.echoOf n with
        len := (s.echoOf n).len + 1
        buf := (s.echoOf n).buf.write (s.echoOf n).len b }
  | data (hr : s.EchoInRange n) (hst : (s.echoOf n).st = .echoData) (hend : s.atEnd n = .ok false)
    (hidx : (s.echoOf n).idx + 1 < s.cfg.capacity) :
    EchoNext s n (.grantData n) { s.echoOf n with idx := (s.echoOf n).idx + 1 }
  | cr (hr : s.EchoInRange n) (hst : (s.echoOf n).st = .echoData) :
    EchoNext s n (.grantCr n) { s.echoOf n with st := .echoLf }
  | lf (hr : s.EchoInRange n) (hst : (s.echoOf n).st = .echoLf) :
    EchoNext s n (.grantLf n) { s.echoOf n with len := 0, idx := 0, st := .idle }

theorem exec_echoNext {i : Instr} {s t : State} (h : exec i s = .next t) (n : Link) :
    EchoNext s n i (t.echoOf n) := by
  obtain ⟨hwf, hc, hr, -⟩ := exec_next_cases h
  obtain heq | rfl | rfl | ⟨b, rfl⟩ | rfl | rfl | rfl := exec_echo_cases h n
  · rw [heq]
    exact .same i
  · rw [exec_reset_next h, resetBlock_echoOf_eq_atReset]
    exact .reset
  · rw [exec_rxTerm_next h, receiving_echoOf]
    exact .term hr hc
  · obtain ⟨hst, hroom⟩ := hc
    rw [exec_rxAppend_next h, receiving_echoOf]
    exact .append b hr hwf hst hroom
  · obtain ⟨b, hidx, rfl⟩ := exec_grantData_next h
    obtain ⟨hst, hend⟩ := hc
    rw [transmitting_echoOf]
    exact .data hr hst hend hidx
  · obtain ⟨hst, -⟩ := hc
    rw [exec_grantCr_next h, transmitting_echoOf]
    exact .cr hr hst
  · rw [exec_grantLf_next h, transmitting_echoOf]
    exact .lf hr hc

/-- An echo engine in range stays in range. -/
theorem EchoNext.echoInRange {s t : State} {n : Link} {i : Instr} (h : EchoNext s n i (t.echoOf n))
    (hcfg : t.cfg = s.cfg) (hr : s.EchoInRange n) : t.EchoInRange n := by
  obtain ⟨hst, hlen, hidx⟩ := hr
  unfold State.EchoInRange
  rw [hcfg]
  generalize t.echoOf n = e at h
  cases h with
  | same => exact ⟨hst, hlen, hidx⟩
  | reset => simp [Echo.atReset]; omega
  | term => simp; omega
  | append b _ _ _ hroom => exact ⟨hst, by simp; omega, hidx⟩
  | data _ _ _ hnext => exact ⟨hst, hlen, hnext⟩
  | cr => simp; omega
  | lf => simp; omega

/-- An accumulator in canonical form inside its address space stays so. -/
theorem EchoNext.memoryWf {s : State} {n : Link} {i : Instr} {e : Echo} (h : EchoNext s n i e)
    (hwf : (s.echoOf n).buf.wf) (hin : ∀ c ∈ (s.echoOf n).buf, c.1 < s.cfg.capacity) :
    e.buf.wf ∧ ∀ c ∈ e.buf, c.1 < s.cfg.capacity := by
  cases h with
  | reset => exact ⟨List.Pairwise.nil, fun c hc => by cases hc⟩
  | term hr | append b hr =>
    obtain ⟨-, hlen, -⟩ := hr
    exact ⟨Memory.write_wf hwf _ _, Memory.write_inside hin hlen _⟩
  | same | data | cr | lf => exact ⟨hwf, hin⟩

/-- The end of the data is not reached on a NUL in the reading that stops there (R135). -/
theorem State.read_ne_nul_of_atEnd {s : State} {n : Link} (hend : s.atEnd n = .ok false)
    (hstop : s.cfg.echoNulStop = true) : (s.echoOf n).buf.read (s.echoOf n).idx ≠ some 0x00 := by
  intro hread
  unfold State.atEnd State.memRead at hend
  rw [if_pos hstop, hread] at hend
  split at hend <;> cases hend

/-- R37 speaks of the engine and the configuration alone. -/
theorem State.EchoInv.of_eq {s t : State} {n : Link} (hinv : s.EchoInv n) (hcfg : t.cfg = s.cfg)
    (hecho : t.echoOf n = s.echoOf n) : t.EchoInv n where
  range := by unfold State.EchoInRange; rw [hcfg, hecho]; exact hinv.range
  idle_idx := by rw [hecho]; exact hinv.idle_idx
  marker := by unfold State.Busy; rw [hecho]; exact hinv.marker
  idx_le := by unfold State.Busy; rw [hecho]; exact hinv.idx_le
  line := by rw [hecho]; exact hinv.line
  no_nul := by rw [hecho, hcfg]; exact hinv.no_nul
  canonical := by rw [hecho]; exact hinv.canonical
  inside := by rw [hecho, hcfg]; exact hinv.inside

section

variable {s : State} {n : Link} (hrange : s.EchoInRange n) (hcanonical : (s.echoOf n).buf.wf)
  (hinside : ∀ c ∈ (s.echoOf n).buf, c.1 < s.cfg.capacity)
  (hline : ∀ i < (s.echoOf n).len, ∃ b, (s.echoOf n).buf.read i = some b ∧ b ≠ termByte)
include hrange hcanonical hinside hline

/-- What R37 asks of an idle engine. -/
theorem State.EchoInv.of_idle (hst : (s.echoOf n).st = .idle) (hidx : (s.echoOf n).idx = 0) : s.EchoInv n where
  range := hrange
  idle_idx _ := hidx
  marker hbusy := absurd hst hbusy
  idx_le hbusy := absurd hst hbusy
  line := hline
  no_nul hdata := by simp [hst] at hdata
  canonical := hcanonical
  inside := hinside

/-- What R37 asks of a busy engine. -/
theorem State.EchoInv.of_busy (hst : s.Busy n)
    (hmarker : (s.echoOf n).buf.read (s.echoOf n).len = some markByte) (hidx : (s.echoOf n).idx ≤ (s.echoOf n).len)
    (hnul : (s.echoOf n).st = .echoData → s.cfg.echoNulStop = true →
      ∀ i < (s.echoOf n).idx, (s.echoOf n).buf.read i ≠ some 0x00) : s.EchoInv n where
  range := hrange
  idle_idx hidle := absurd hidle hst
  marker _ := hmarker
  idx_le _ := hidx
  line := hline
  no_nul := hnul
  canonical := hcanonical
  inside := hinside

end

/-- An echo engine that meets R37 goes on meeting it. -/
theorem EchoNext.echoInv {s t : State} {n : Link} {i : Instr} (h : EchoNext s n i (t.echoOf n))
    (hcfg : t.cfg = s.cfg) (hinv : s.EchoInv n) : t.EchoInv n := by
  have hrange : t.EchoInRange n := h.echoInRange hcfg hinv.range
  obtain ⟨hwf, hin⟩ := h.memoryWf hinv.canonical hinv.inside
  rw [← hcfg] at hin
  generalize he : t.echoOf n = e at h
  cases h with
  | same => exact hinv.of_eq hcfg he
  | reset => apply State.EchoInv.of_idle hrange hwf hin <;> simp [he, Echo.atReset]
  | lf => apply State.EchoInv.of_idle hrange hwf hin <;> simp [he]
  | append b _ hb hst =>
    refine .of_idle hrange hwf hin ?_ (by simp [he, hst]) (by simp [he, hinv.idle_idx hst])
    rw [he]
    intro i hi
    obtain hlt | rfl := Nat.lt_succ_iff_lt_or_eq.mp hi
    · rw [Memory.read_write_other _ hlt.ne]
      exact hinv.line i hlt
    · exact ⟨b, Memory.read_write_same _ _ _, hb⟩
  | term =>
    refine .of_busy hrange hwf hin ?_ (by simp [he]) (by simp [he]) (by simp [he]) (by simp [he])
    rw [he]
    intro i hi
    rw [Memory.read_write_other _ hi.ne]
    exact hinv.line i hi
  | data _ hst hend =>
    have hbusy : s.Busy n := by simp [hst]
    refine .of_busy hrange hwf hin ?_ (by simp [he, hst]) ?_ ?_ ?_
    · rw [he]; exact hinv.line
    · rw [he]; exact hinv.marker hbusy
    · rw [he]; exact hinv.idx_lt_len hst hend
    · rw [he, hcfg]
      intro _ hstop i hi
      obtain hlt | rfl := Nat.lt_succ_iff_lt_or_eq.mp hi
      · exact hinv.no_nul hst hstop i hlt
      · exact State.read_ne_nul_of_atEnd hend hstop
  | cr _ hst =>
    have hbusy : s.Busy n := by simp [hst]
    refine .of_busy hrange hwf hin ?_ (by simp [he]) ?_ ?_ (by simp [he])
    · rw [he]; exact hinv.line
    · rw [he]; exact hinv.marker hbusy
    · rw [he]; exact hinv.idx_le hbusy

/-! ## Periodic engines -/

/-- The values operation `i` can leave in periodic engine `u` (R174 to R177, R280). -/
inductive PeriodicNext (s : State) (u : Engine) : Instr → Periodic → Prop where
  | same (i : Instr) (hi : i ≠ tickInstr u) : PeriodicNext s u i (s.periodicOf u)
  | reset : PeriodicNext s u .reset (Periodic.atReset (s.outInactiveOf u))
  | clock : PeriodicNext s u .clk ((s.periodicOf u).clock (s.divisorOf u))
  | service (hpend : (s.periodicOf u).pend = true) :
    PeriodicNext s u (tickInstr u) { s.periodicOf u with out := !(s.periodicOf u).out, pend := false }

theorem exec_periodicNext {i : Instr} {s t : State} (h : exec i s = .next t) (u : Engine) :
    PeriodicNext s u i (t.periodicOf u) := by
  cases exec_nextState h with
  | reset =>
    rw [resetBlock_periodicOf_eq_atReset]
    exact .reset
  | clk =>
    rw [clockBoth_periodicOf]
    exact .clock
  | tick v =>
    by_cases huv : u = v
    · subst huv
      rw [serviceTick_periodicOf_same]
      exact .service (exec_tickInstr_next h).1
    · rw [serviceTick_periodicOf_other s huv]
      refine .same _ fun heq => huv ?_
      have hstimulus := congrArg Instr.stimulus heq
      rw [tickInstr_stimulus, tickInstr_stimulus] at hstimulus
      exact (Stimulus.tick.inj hstimulus).symm
  | receive e hi =>
    refine .same _ ?_
    rintro rfl
    rw [tickInstr_stimulus] at hi
    cases hi
  | transmit b e hi => exact .same _ (by rcases hi with rfl | rfl | rfl <;> cases u <;> simp [tickInstr])
  | grantIdle | tickNop | hosttx => exact .same _ (by cases u <;> simp [tickInstr])

/-- A periodic engine in range stays in range. -/
theorem PeriodicNext.periodicInRange {s t : State} {u : Engine} {i : Instr}
    (h : PeriodicNext s u i (t.periodicOf u)) (hcfg : t.cfg = s.cfg) (hr : s.PeriodicInRange u) :
    t.PeriodicInRange u := by
  obtain ⟨hpre, hcnt⟩ := hr
  unfold State.PeriodicInRange State.divisorOf
  rw [hcfg]
  generalize t.periodicOf u = p at h
  cases h with
  | same | service => exact ⟨hpre, hcnt⟩
  | reset => exact ⟨Nat.zero_lt_of_lt hpre, Nat.zero_lt_of_lt hcnt⟩
  | clock => exact Periodic.clock_range hpre hcnt

/-! ## Wires -/

theorem exec_wireInv {i : Instr} {s t : State} (h : exec i s = .next t) (hcfg : t.cfg = s.cfg)
    (hinv : s.WireInv) : t.WireInv := by
  obtain ⟨m, b, rfl, rfl⟩ | ⟨-, hlog, hhavoc⟩ := exec_host_cases h
  · intro n hclean
    by_cases hnm : n = m
    · subst hnm
      simp at hclean
    · rw [State.hostWrite_wireHavoc_other s hnm] at hclean
      rw [State.hostWrite_hostLog_other s hnm]
      exact hinv n hclean
  · intro n
    rw [hlog, hhavoc, hcfg]
    exact hinv n

/-! ## Steps -/

/-- What taking a word from the script and every operation keep, a step keeps. -/
theorem step_keeps {P : State → Prop} (hscript : ∀ s rest, P s → P { s with script := rest })
    (hexec : ∀ i s t, exec i s = .next t → P s → P t) {s t : State} (hs : P s) (h : step s = .next t) : P t := by
  obtain ⟨-, hwait⟩ | ⟨w, rest, -, hword⟩ := step_cases h
  · cases hwait
    exact hs
  · obtain ⟨i, -, hi⟩ := exec_of_stepWord hword
    exact hexec i _ t hi (hscript s rest hs)

theorem exec_inRange {i : Instr} {s t : State} (h : exec i s = .next t) (hr : s.InRange) : t.InRange := by
  obtain ⟨hecho, hperiodic⟩ := hr
  exact ⟨fun n => (exec_echoNext h n).echoInRange (exec_cfg h) (hecho n),
    fun u => (exec_periodicNext h u).periodicInRange (exec_cfg h) (hperiodic u)⟩

theorem exec_memoryWf {i : Instr} {s t : State} (h : exec i s = .next t) (hm : s.MemoryWf) : t.MemoryWf := by
  intro n
  obtain ⟨hwf, hin⟩ := hm n
  rw [exec_cfg h]
  exact (exec_echoNext h n).memoryWf hwf hin

theorem exec_echoInv {i : Instr} {s t : State} {n : Link} (h : exec i s = .next t) (hinv : s.EchoInv n) :
    t.EchoInv n :=
  (exec_echoNext h n).echoInv (exec_cfg h) hinv

theorem exec_inv {i : Instr} {s t : State} (h : exec i s = .next t) (hinv : s.Inv) : t.Inv where
  echo n := exec_echoInv h (hinv.echo n)
  periodic u := (exec_periodicNext h u).periodicInRange (exec_cfg h) (hinv.periodic u)
  wire := exec_wireInv h (exec_cfg h) hinv.wire

/-- The invariant does not speak of the script. -/
theorem State.Inv.with_script {s : State} (hinv : s.Inv) (rest : List Word) : State.Inv { s with script := rest } where
  echo n := (hinv.echo n).of_eq rfl rfl
  periodic := hinv.periodic
  wire := hinv.wire

end Sys2Proof.Machine

namespace Sys2Proof

open Machine

/-- Settles O52: each engine's part of the invariant is kept by whatever an operation leaves in the engine, the wires'
part because the host's write sets the mark of the link it writes. -/
theorem everyStepKeepsTheInvariant : Obligations.EveryStepKeepsTheInvariant :=
  fun _ _ => step_keeps (fun _ rest hinv => hinv.with_script rest) fun _ _ _ => exec_inv

/-- Settles O55: an operation counts or indexes upwards only below its bound. -/
theorem everyStepKeepsTheRanges : Obligations.EveryStepKeepsTheRanges :=
  fun _ _ => step_keeps (fun _ _ => id) fun _ _ _ => exec_inRange

/-- Settles O56: an accumulator is written at `len` only, which is inside it, or emptied. -/
theorem everyStepKeepsMemoryCanonical : Obligations.EveryStepKeepsMemoryCanonical :=
  fun _ _ => step_keeps (fun _ _ => id) fun _ _ _ => exec_memoryWf

end Sys2Proof

/-!
Frames of the operations: what each receive, transmit and periodic operation leaves alone (spec/40_line_echo.md
sections 1 and 2, spec/41_periodic.md sections 2 and 3, spec/20_memory.md section 1), and which operations alone write
an accumulator, a log, an output or a holding.
-/

namespace Sys2Proof

open Machine

/-- Settles O15: the three operations take the byte and leave a value in their engine; they differ in that value. -/
theorem receiveOperationsFrame : Obligations.ReceiveOperationsFrame := by
  rintro n b i s t (rfl | rfl | rfl) h
  · have ht := exec_rxTerm_next h
    obtain ⟨hframe, hother, hhead, hhold⟩ := receiving_frame ht
    rw [if_pos rfl]
    refine ⟨hframe, hother, hhead, hhold, ?_⟩
    rw [ht, receiving_echoOf]
    exact ⟨fun a ha => Memory.read_write_other _ ha _, fun _ => rfl, by simp, by simp⟩
  · have ht := exec_rxAppend_next h
    obtain ⟨hframe, hother, hhead, hhold⟩ := receiving_frame ht
    refine ⟨hframe, hother, hhead, hhold, ?_⟩
    rw [ht, receiving_echoOf]
    exact ⟨fun a ha => Memory.read_write_other _ ha _, by simp, fun _ => ⟨rfl, rfl⟩, by simp⟩
  · have ht := exec_rxDrop_next h
    obtain ⟨hframe, hother, hhead, hhold⟩ := receiving_frame (ht.trans (consume_eq_receiving s n b))
    subst ht
    exact ⟨hframe, hother, hhead, hhold, fun _ _ => rfl, by simp, by simp, fun _ => rfl⟩

/-- Settles O21: a grant sends a byte and leaves a value with the same accumulator in its engine, or changes
nothing. -/
theorem transmitOperationsFrame : Obligations.TransmitOperationsFrame := by
  rintro n i s t (rfl | rfl | rfl | rfl) h
  · obtain ⟨b, -, ht⟩ := exec_grantData_next h
    obtain ⟨hframe, hother, hread⟩ := transmitting_frame ht rfl
    refine ⟨hframe, hother, hread, ?_⟩
    rw [ht, transmitting_echoOf]
    exact ⟨fun _ => ⟨rfl, rfl⟩, by simp, by simp⟩
  · have ht := exec_grantCr_next h
    obtain ⟨hframe, hother, hread⟩ := transmitting_frame ht rfl
    refine ⟨hframe, hother, hread, ?_⟩
    rw [ht, transmitting_echoOf]
    exact ⟨by simp, fun _ => ⟨rfl, rfl⟩, by simp⟩
  · obtain ⟨hframe, hother, hread⟩ := transmitting_frame (exec_grantLf_next h) rfl
    exact ⟨hframe, hother, hread, by simp, by simp, by simp⟩
  · obtain rfl := exec_grantIdle_next h
    exact ⟨rfl, fun _ _ => ⟨rfl, rfl⟩, fun _ _ => rfl, by simp, by simp, fun _ => rfl⟩

/-- Settles O22: what one operation does to the sent bytes of a link. -/
theorem onlyEchoGrantsEmit : Obligations.OnlyEchoGrantsEmit :=
  fun _ _ _ n h => exec_txLog_cases h n

/-- Settles O23: of the values an operation can leave in the engine, only those of RX_TERM, RX_APPEND and RESET have
another accumulator. -/
theorem onlyItsOwnEngineWritesAnAccumulator : Obligations.OnlyItsOwnEngineWritesAnAccumulator := by
  intro i s t n h hne
  have hnext := exec_echoNext h n
  generalize t.echoOf n = e at hnext hne
  cases hnext with
  | term => exact .inl rfl
  | append b => exact .inr (.inl ⟨b, rfl⟩)
  | reset => exact .inr (.inr ⟨rfl, rfl⟩)
  | same | data | cr | lf => exact absurd rfl hne

/-- Settles O36: a clock cycle keeps the outputs, a service its engine's counters and all of the other engine. -/
theorem periodicOperationsFrame : Obligations.PeriodicOperationsFrame := by
  rintro i s t (rfl | rfl | rfl | ⟨u, rfl⟩) h
  · obtain rfl := exec_clk_next h
    refine ⟨rfl, fun _ _ => rfl, fun _ u => ?_, by simp, by simp, by simp, by simp⟩
    rw [clockBoth_periodicOf, Periodic.clock_out]
  · obtain ⟨-, rfl⟩ := exec_tickInstr_next (u := .a) h
    obtain ⟨hframe, hother, hcounts⟩ := serviceTick_frame s .a
    exact ⟨hframe, fun _ _ => rfl, by simp, fun _ => hother .b (by simp), by simp, fun _ => hcounts, by simp⟩
  · obtain ⟨-, rfl⟩ := exec_tickInstr_next (u := .b) h
    obtain ⟨hframe, hother, hcounts⟩ := serviceTick_frame s .b
    exact ⟨hframe, fun _ _ => rfl, by simp, by simp, fun _ => hother .a (by simp), fun _ => hcounts, by simp⟩
  · obtain rfl := exec_tickNop_next h
    exact ⟨rfl, fun _ _ => rfl, by simp, by simp, by simp, fun _ _ => ⟨rfl, rfl⟩, fun _ => rfl⟩

/-- Settles O37: of the values an operation can leave in the engine, only those of its service and of RESET can have
another output. -/
theorem outputChangesOnlyByServiceOrReset : Obligations.OutputChangesOnlyByServiceOrReset := by
  intro i s t u h hne
  have hnext := exec_periodicNext h u
  generalize t.periodicOf u = p at hnext hne
  cases hnext with
  | service hpend => exact .inl ⟨rfl, hpend⟩
  | reset => exact .inr ⟨rfl, rfl⟩
  | same => exact absurd rfl hne
  | clock => exact absurd (Periodic.clock_out _ _) hne

/-- Settles O46: the moves' frame, and HOSTTX's effect is the host's write. -/
theorem environmentNeverChangesTheBlock : Obligations.EnvironmentNeverChangesTheBlock := by
  refine ⟨envStep_frame, fun n b s t h => ?_⟩
  obtain rfl := exec_hosttx_next h
  exact ⟨rfl, rfl, rfl, rfl⟩

/-- Settles O58: the effects' frame, and what they do to the environment. -/
theorem operationsLeaveTheirSurroundingsAlone : Obligations.OperationsLeaveTheirSurroundingsAlone := by
  intro i s t h
  have hframe := effectOf_frame (effectOf_of_exec h)
  exact ⟨exec_cfg h, (congrArg State.refusalMark hframe :), (congrArg State.faultMark hframe :),
    (congrArg State.script hframe :), exec_env h⟩

end Sys2Proof

/-!
One slot of an echo (spec/40_line_echo.md R135 to R140): the end of the data in both readings, the state a grant
answers in each state of the engine, and the slots an engine still needs.
-/

namespace Sys2Proof.Machine

/-! ## The end of the data -/

/-- The reading that stops at NUL looks at the byte at `idx`. -/
theorem State.atEnd_of_nulStop {s : State} {n : Link} {b : Byte} (hstop : s.cfg.echoNulStop = true)
    (hidx : (s.echoOf n).idx < s.cfg.capacity) (hread : (s.echoOf n).buf.read (s.echoOf n).idx = some b) :
    s.atEnd n = .ok (decide (b = 0x00)) := by
  have hmem : s.memRead n (s.echoOf n).idx = .ok b := State.memRead_ok.mpr ⟨hidx, hread⟩
  rw [State.atEnd, if_pos hstop, hmem]
  rfl

/-- The other reading compares `idx` with `len`. -/
theorem State.atEnd_of_length {s : State} {n : Link} (hstop : s.cfg.echoNulStop = false) :
    s.atEnd n = .ok (decide ((s.echoOf n).idx = (s.echoOf n).len)) := by
  rw [State.atEnd, if_neg (by simp [hstop])]
  rfl

/-- A busy engine that meets R37 holds a byte at `idx`: one of its line, or the MARK. -/
theorem State.EchoInv.read_idx {s : State} {n : Link} (hinv : s.EchoInv n) (hbusy : s.Busy n) :
    ∃ b, (s.echoOf n).buf.read (s.echoOf n).idx = some b := by
  obtain hlt | heq := Nat.lt_or_eq_of_le (hinv.idx_le hbusy)
  · obtain ⟨b, hread, -⟩ := hinv.line _ hlt
    exact ⟨b, hread⟩
  · exact ⟨markByte, heq ▸ hinv.marker hbusy⟩

theorem State.EchoInv.atEnd_ok {s : State} {n : Link} (hinv : s.EchoInv n) (hbusy : s.Busy n) :
    ∃ e, s.atEnd n = .ok e := by
  obtain ⟨b, hread⟩ := hinv.read_idx hbusy
  obtain ⟨-, -, hidx⟩ := hinv.range
  cases hstop : s.cfg.echoNulStop with
  | true => exact ⟨_, State.atEnd_of_nulStop hstop hidx hread⟩
  | false => exact ⟨_, State.atEnd_of_length hstop⟩

/-! ## What a grant does -/

theorem stepWord_grant_idle {s : State} {n : Link} (hr : s.EchoInRange n) (hst : (s.echoOf n).st = .idle) :
    stepWord (Stimulus.grant n).word s = .next s :=
  stepWord_next_of_select ((select_grant hr).trans (by rw [hst])) rfl

theorem stepWord_grant_data {s : State} {n : Link} (hinv : s.EchoInv n) (hst : (s.echoOf n).st = .echoData)
    (hend : s.atEnd n = .ok false) {b : Byte} (hread : (s.echoOf n).buf.read (s.echoOf n).idx = some b) :
    stepWord (Stimulus.grant n).word s =
      .next (transmitting s n b { s.echoOf n with idx := (s.echoOf n).idx + 1 }) := by
  have hidx : (s.echoOf n).idx < (s.echoOf n).len := hinv.idx_lt_len hst hend
  obtain ⟨-, hlen, -⟩ := hinv.range
  exact stepWord_next_of_select (select_grant_atEnd hinv.range hst hend)
    (sendDataByte_ok.mpr ⟨b, hread, by omega, rfl⟩)

theorem stepWord_grant_cr {s : State} {n : Link} (hr : s.EchoInRange n) (hst : (s.echoOf n).st = .echoData)
    (hend : s.atEnd n = .ok true) :
    stepWord (Stimulus.grant n).word s = .next (transmitting s n termByte { s.echoOf n with st := .echoLf }) :=
  stepWord_next_of_select (select_grant_atEnd hr hst hend) rfl

theorem select_grant_lf {s : State} {n : Link} (hr : s.EchoInRange n) (hst : (s.echoOf n).st = .echoLf) :
    select (.grant n) s = .op (.grantLf n) :=
  (select_grant hr).trans (by rw [hst])

theorem stepWord_grant_lf {s : State} {n : Link} (hr : s.EchoInRange n) (hst : (s.echoOf n).st = .echoLf) :
    stepWord (Stimulus.grant n).word s =
      .next (transmitting s n lfByte { s.echoOf n with len := 0, idx := 0, st := .idle }) :=
  stepWord_next_of_select (select_grant_lf hr hst) rfl

/-! ## The slots an engine needs -/

/-- The most grants after which the engine is idle: its bytes to come, the CR and the LF (R140). -/
def Echo.slotsOwed (e : Echo) : Nat :=
  match e.st with
  | .idle => 0
  | .echoData => e.len - e.idx + 2
  | .echoLf => 1
  | .unused => 0

theorem Echo.slotsOwed_le (e : Echo) : e.slotsOwed ≤ e.len - e.idx + 2 := by
  unfold Echo.slotsOwed
  split <;> omega

/-- A grant to a busy engine has a step, which brings the engine nearer to its end. -/
theorem State.EchoInv.stepWord_grant_busy {s : State} {n : Link} (hinv : s.EchoInv n) (hbusy : s.Busy n) :
    ∃ t, stepWord (Stimulus.grant n).word s = .next t ∧
      (t.echoOf n).slotsOwed < (s.echoOf n).slotsOwed := by
  have hr := hinv.range
  cases hst : (s.echoOf n).st with
  | idle => exact absurd hst hbusy
  | unused => exact absurd hst hr.1
  | echoLf =>
    refine ⟨_, stepWord_grant_lf hr hst, ?_⟩
    simp [Echo.slotsOwed, hst]
  | echoData =>
    obtain ⟨e, hend⟩ := hinv.atEnd_ok hbusy
    cases e with
    | true =>
      refine ⟨_, stepWord_grant_cr hr hst hend, ?_⟩
      simp [Echo.slotsOwed, hst]
    | false =>
      obtain ⟨b, hread⟩ := hinv.read_idx hbusy
      have hidx : (s.echoOf n).idx < (s.echoOf n).len := hinv.idx_lt_len hst hend
      refine ⟨_, stepWord_grant_data hinv hst hend hread, ?_⟩
      simp only [transmitting_echoOf, Echo.slotsOwed, hst]
      omega

/-- No operation takes a busy engine further from its end. -/
theorem EchoNext.slotsOwed_le {s : State} {n : Link} {i : Instr} {e : Echo} (h : EchoNext s n i e)
    (hbusy : s.Busy n) : e.slotsOwed ≤ (s.echoOf n).slotsOwed := by
  cases h with
  | same => exact Nat.le_refl _
  | reset => exact Nat.zero_le _
  | term _ hst | append _ _ _ hst => exact absurd hst hbusy
  | data _ hst => simp only [Echo.slotsOwed, hst]; omega
  | cr _ hst => simp [Echo.slotsOwed, hst]
  | lf => exact Nat.zero_le _

theorem stepWord_slotsOwed_le {w : Word} {s t : State} {n : Link} (h : stepWord w s = .next t)
    (hbusy : s.Busy n) : (t.echoOf n).slotsOwed ≤ (s.echoOf n).slotsOwed := by
  obtain ⟨i, -, hexec⟩ := exec_of_stepWord h
  exact (exec_echoNext hexec n).slotsOwed_le hbusy

theorem State.EchoInRange.slotsOwed_pos {s : State} {n : Link} (hr : s.EchoInRange n) (hbusy : s.Busy n) :
    0 < (s.echoOf n).slotsOwed := by
  obtain ⟨hused, -, -⟩ := hr
  unfold Echo.slotsOwed
  split
  · next hst => exact absurd hst hbusy
  · omega
  · omega
  · next hst => exact absurd hst hused

theorem stepWord_echoInv {w : Word} {s t : State} {n : Link} (h : stepWord w s = .next t) (hinv : s.EchoInv n) :
    t.EchoInv n := by
  obtain ⟨i, -, hexec⟩ := exec_of_stepWord h
  exact exec_echoInv hexec hinv

/-! ## Runs that reach the end of an echo -/

/-- With as many grants as slots owed among its words, a run has left the engine idle after some of its words. -/
theorem State.EchoInv.idle_of_grants {n : Link} (ws : List Word) {s t : State} (hinv : s.EchoInv n)
    (hrun : runWords ws s = some t) (hgrants : (s.echoOf n).slotsOwed ≤ ws.count (Stimulus.grant n).word) :
    ∃ j ≤ ws.length, ∃ t', runWords (ws.take j) s = some t' ∧ t'.RxReady n := by
  induction ws generalizing s with
  | nil =>
    refine ⟨0, Nat.le_refl _, s, rfl, by_contra fun hbusy => ?_⟩
    have hpos := hinv.range.slotsOwed_pos hbusy
    simp at hgrants
    omega
  | cons w ws ih =>
    by_cases hbusy : s.Busy n
    · obtain ⟨u, hstep, hrest⟩ := runWords_cons.mp hrun
      have howed : (u.echoOf n).slotsOwed ≤ ws.count (Stimulus.grant n).word := by
        rw [List.count_cons] at hgrants
        by_cases hw : w = (Stimulus.grant n).word
        · obtain ⟨v, hgrant, hlt⟩ := hinv.stepWord_grant_busy hbusy
          obtain rfl : v = u := Host.Outcome.next.inj (hgrant.symm.trans (hw ▸ hstep))
          simp only [hw, beq_self_eq_true, if_true] at hgrants
          omega
        · have hle := stepWord_slotsOwed_le hstep hbusy
          simp only [beq_iff_eq, if_neg hw] at hgrants
          omega
      obtain ⟨j, hj, t', htake, hready⟩ := ih (stepWord_echoInv hstep hinv) hrest howed
      refine ⟨j + 1, by simpa using hj, t', ?_, hready⟩
      rw [List.take_succ_cons, runWords_cons_next hstep]
      exact htake
    · exact ⟨0, Nat.zero_le _, s, rfl, not_not.mp hbusy⟩

/-- DRAIN's words are grants that run and leave the engine idle, when the bound covers the slots owed. -/
theorem drainWords_spec {n : Link} (k : Nat) {s : State} (hinv : s.EchoInv n) (hk : (s.echoOf n).slotsOwed ≤ k) :
    (drainWords n k s).length ≤ k ∧ (∀ w ∈ drainWords n k s, w = (Stimulus.grant n).word) ∧
      ∃ t, runWords (drainWords n k s) s = some t ∧ t.RxReady n := by
  induction k generalizing s with
  | zero =>
    refine ⟨Nat.le_refl _, by simp [drainWords], s, rfl, by_contra fun hbusy => ?_⟩
    have hpos := hinv.range.slotsOwed_pos hbusy
    omega
  | succ k ih =>
    by_cases hbusy : s.Busy n
    · obtain ⟨u, hstep, hlt⟩ := hinv.stepWord_grant_busy hbusy
      obtain ⟨hlength, hwords, t, hrun, hready⟩ := ih (stepWord_echoInv hstep hinv) (by omega)
      have hdrain : drainWords n (k + 1) s = (Stimulus.grant n).word :: drainWords n k u := by
        simp only [drainWords, if_pos hbusy, hstep]
      rw [hdrain]
      refine ⟨by simpa using hlength, ?_, t, (runWords_cons_next hstep).trans hrun, hready⟩
      simpa using hwords
    · have hdrain : drainWords n (k + 1) s = [] := by simp only [drainWords, if_neg hbusy]
      rw [hdrain]
      exact ⟨Nat.zero_le _, by simp, s, rfl, not_not.mp hbusy⟩

section

variable {w : Nat → Word} {σ : Nat → State} {n : Link} (hrun : IsRun w σ)
include hrun

theorem IsRun.echoInv {k j : Nat} (hinv : (σ k).EchoInv n) (hkj : k ≤ j) : (σ j).EchoInv n := by
  induction j, hkj using Nat.le_induction with
  | base => exact hinv
  | succ j _ ih => exact stepWord_echoInv (hrun j) ih

theorem IsRun.slotsOwed_le {k j : Nat} (hbusy : ∀ j ≥ k, (σ j).Busy n) (hkj : k ≤ j) :
    ((σ j).echoOf n).slotsOwed ≤ ((σ k).echoOf n).slotsOwed := by
  induction j, hkj using Nat.le_induction with
  | base => exact Nat.le_refl _
  | succ j hj ih => exact (stepWord_slotsOwed_le (hrun j) (hbusy j hj)).trans ih

end

/-- In a fair run no engine stays busy: each further grant would take it nearer to its end. -/
theorem FairRun.not_always_busy {w : Nat → Word} {σ : Nat → State} {n : Link} (hfair : FairRun w σ) (k : Nat)
    (hinv : (σ k).EchoInv n) : ¬ ∀ j ≥ k, (σ j).Busy n := by
  induction howed : ((σ k).echoOf n).slotsOwed using Nat.strong_induction_on generalizing k with
  | _ owed ih =>
    intro hbusy
    obtain ⟨j, hj, hword⟩ := hfair.grants n k hbusy
    have hinv' := hfair.run.echoInv hinv hj
    obtain ⟨t, hgrant, hlt⟩ := hinv'.stepWord_grant_busy (hbusy j hj)
    have hstep := hfair.run j
    obtain rfl : t = σ (j + 1) := Host.Outcome.next.inj (hgrant.symm.trans (hword ▸ hstep))
    have hle := hfair.run.slotsOwed_le hbusy hj
    exact ih _ (by omega) (j + 1) (stepWord_echoInv hstep hinv') rfl fun i hi => hbusy i (by omega)

end Sys2Proof.Machine

namespace Sys2Proof

open Machine

/-- Settles O16: the two readings, each from the field it looks at. -/
theorem endOfDataFollowsTheNulReading : Obligations.EndOfDataFollowsTheNulReading :=
  fun _ _ _ hidx => ⟨fun hstop hread => State.atEnd_of_nulStop hstop hidx hread, State.atEnd_of_length⟩

/-- Settles O19: with the data and the CR sent GRANT selects the LF, which no fault can stop. -/
theorem grantLfSendsTheLineFeedAndFlushes : Obligations.GrantLfSendsTheLineFeedAndFlushes :=
  fun _ _ hr hst => decodeIn_exec_of_select (select_grant_lf hr hst) rfl

/-- Settles O29: at most `len - idx + 2` slots are owed. -/
theorem enoughGrantsFinishTheEcho : Obligations.EnoughGrantsFinishTheEcho :=
  fun _ ws _ _ hinv hrun hgrants => hinv.idle_of_grants ws hrun ((Echo.slotsOwed_le _).trans hgrants)

/-- Settles O30: an engine busy from a step on would be granted slots without end. -/
theorem fairRunFinishesEveryEcho : Obligations.FairRunFinishesEveryEcho := by
  intro n w σ k hfair hinv
  by_contra hnever
  push Not at hnever
  exact hfair.not_always_busy k hinv hnever

/-- Settles O31: DRAIN's bound covers the slots owed. -/
theorem drainEmptiesTheEngine : Obligations.DrainEmptiesTheEngine := by
  intro s n hinv
  have howed := Echo.slotsOwed_le (s.echoOf n)
  exact drainWords_spec ((s.echoOf n).len + 2) hinv (by omega)

end Sys2Proof

/-!
Whole lines (spec/40_line_echo.md section 3): what receiving a sequence of bytes leaves in an idle engine, which part
of a line its echo sends, and the run of grants that sends it.
-/

namespace Sys2Proof.Machine

/-! ## The part of a line the echo sends -/

theorem echoedPart_prefix (c : Config) (line : List Byte) : echoedPart c line <+: line := by
  unfold echoedPart
  split
  · exact List.takeWhile_prefix _
  · exact List.prefix_refl _

theorem echoedPart_of_verbatim {c : Config} (h : c.echoNulStop = false) (line : List Byte) :
    echoedPart c line = line :=
  if_neg (by simp [h])

theorem echoedPart_of_nulStop {c : Config} (h : c.echoNulStop = true) (line : List Byte) :
    echoedPart c line = line.takeWhile (· ≠ 0x00) :=
  if_pos h

/-- Without a NUL that could stop it, the echo sends the whole line. -/
theorem echoedPart_of_no_nul {c : Config} {line : List Byte} (h : c.echoNulStop = true → (0x00 : Byte) ∉ line) :
    echoedPart c line = line := by
  cases hstop : c.echoNulStop with
  | false => exact echoedPart_of_verbatim hstop line
  | true =>
    rw [echoedPart_of_nulStop hstop, List.takeWhile_eq_self_iff]
    intro b hb
    simpa using ne_of_mem_of_not_mem hb (h hstop)

/-- The element behind the longest part that satisfies `p` does not satisfy it. -/
theorem not_of_getElem?_length_takeWhile {α : Type} {p : α → Bool} {l : List α} {a : α}
    (h : l[(l.takeWhile p).length]? = some a) : p a = false := by
  induction l with
  | nil => simp at h
  | cons x l ih =>
    cases hx : p x with
    | true =>
      rw [List.takeWhile_cons_of_pos hx] at h
      exact ih (by simpa using h)
    | false =>
      rw [List.takeWhile_cons_of_neg (by simp [hx])] at h
      obtain rfl : x = a := by simpa using h
      exact hx

/-! ## Sending -/

/-- Engine `n` echoes `bytes` and has `rest` of it left to send before the suffix. -/
structure State.Sending (s : State) (n : Link) (bytes rest : List Byte) : Prop where
  inv : s.EchoInv n
  st : (s.echoOf n).st = .echoData
  holds : s.HoldsLine n bytes
  idx_le : (s.echoOf n).idx ≤ (echoedPart s.cfg bytes).length
  left : (echoedPart s.cfg bytes).drop (s.echoOf n).idx = rest

section

variable {s : State} {n : Link} {bytes rest : List Byte} {b : Byte}

/-- The byte to send next is the one at `idx`, before the end of the line. -/
theorem State.Sending.next (h : s.Sending n bytes (b :: rest)) :
    (s.echoOf n).idx < bytes.length ∧ (s.echoOf n).buf.read (s.echoOf n).idx = some b ∧
      b ∈ echoedPart s.cfg bytes := by
  obtain ⟨hlen, hread⟩ := h.holds
  have hget : (echoedPart s.cfg bytes)[(s.echoOf n).idx]? = some b := by
    rw [← List.head?_drop, h.left, List.head?_cons]
  obtain ⟨hlt, hb⟩ := List.getElem?_eq_some_iff.mp hget
  have hline : bytes[(s.echoOf n).idx]? = some b := by
    rw [List.prefix_iff_getElem?.mp (echoedPart_prefix _ _) _ hlt, hb]
  have hidx : (s.echoOf n).idx < bytes.length := (List.getElem?_eq_some_iff.mp hline).1
  exact ⟨hidx, (hread _ hidx).trans hline, List.mem_of_getElem? hget⟩

/-- Before the end of the part to send, the end of the data is not reached. -/
theorem State.Sending.atEnd_cons (h : s.Sending n bytes (b :: rest)) : s.atEnd n = .ok false := by
  obtain ⟨hidx, hread, hmem⟩ := h.next
  obtain ⟨hlen, -⟩ := h.holds
  obtain ⟨-, -, hrange⟩ := h.inv.range
  cases hstop : s.cfg.echoNulStop with
  | true =>
    rw [echoedPart_of_nulStop hstop] at hmem
    have hb : b ≠ 0x00 := by simpa using List.mem_takeWhile_imp hmem
    rw [State.atEnd_of_nulStop hstop hrange hread, decide_eq_false hb]
  | false => rw [State.atEnd_of_length hstop, decide_eq_false (by omega)]

theorem State.Sending.idx_of_nil (h : s.Sending n bytes []) :
    (s.echoOf n).idx = (echoedPart s.cfg bytes).length :=
  le_antisymm h.idx_le (List.drop_eq_nil_iff.mp h.left)

/-- Behind the part to send stands a NUL of the line or the MARK, in the reading that stops there. -/
theorem State.Sending.read_nul (h : s.Sending n bytes []) (hstop : s.cfg.echoNulStop = true) :
    (s.echoOf n).buf.read (s.echoOf n).idx = some 0x00 := by
  obtain ⟨hlen, hread⟩ := h.holds
  have hbusy : s.Busy n := by simp [h.st]
  obtain hlt | heq : (s.echoOf n).idx < bytes.length ∨ (s.echoOf n).idx = bytes.length := by
    have hle := (echoedPart_prefix s.cfg bytes).length_le
    have hidx := h.idx_le
    omega
  · obtain ⟨b, hb⟩ : ∃ b, bytes[(s.echoOf n).idx]? = some b := ⟨_, List.getElem?_eq_getElem hlt⟩
    have hb' := hb
    rw [h.idx_of_nil, echoedPart_of_nulStop hstop] at hb'
    obtain rfl : b = 0x00 := by simpa using not_of_getElem?_length_takeWhile hb'
    exact (hread _ hlt).trans hb
  · rw [heq, ← hlen]
    exact h.inv.marker hbusy

/-- Behind the part to send, the end of the data is reached. -/
theorem State.Sending.atEnd_nil (h : s.Sending n bytes []) : s.atEnd n = .ok true := by
  cases hstop : s.cfg.echoNulStop with
  | true =>
    obtain ⟨-, -, hrange⟩ := h.inv.range
    rw [State.atEnd_of_nulStop hstop hrange (h.read_nul hstop)]
    rfl
  | false =>
    obtain ⟨hlen, -⟩ := h.holds
    have hidx := h.idx_of_nil
    rw [echoedPart_of_verbatim hstop] at hidx
    rw [State.atEnd_of_length hstop, decide_eq_true (by omega)]

/-- A grant sends the next byte. -/
theorem State.Sending.grant_data (h : s.Sending n bytes (b :: rest)) :
    ∃ t, stepWord (Stimulus.grant n).word s = .next t ∧ t.Sending n bytes rest ∧
      t.txLog.get n = s.txLog.get n ++ [b] := by
  obtain ⟨hidx, hread, -⟩ := h.next
  have hstep := stepWord_grant_data h.inv h.st h.atEnd_cons hread
  refine ⟨_, hstep, ?_, by rw [transmitting_txLog, if_pos rfl]⟩
  have hlt : (s.echoOf n).idx < (echoedPart s.cfg bytes).length := by
    by_contra hge
    have hnil := h.left
    rw [List.drop_eq_nil_of_le (by omega)] at hnil
    cases hnil
  exact
    { inv := stepWord_echoInv hstep h.inv
      st := by rw [transmitting_echoOf]; exact h.st
      holds := by unfold State.HoldsLine; rw [transmitting_echoOf]; exact h.holds
      idx_le := by rw [transmitting_echoOf]; exact hlt
      left := by
        rw [transmitting_echoOf]
        show (echoedPart s.cfg bytes).drop ((s.echoOf n).idx + 1) = rest
        rw [← List.tail_drop, h.left, List.tail_cons] }

/-- With nothing left a grant sends the CR. -/
theorem State.Sending.grant_cr (h : s.Sending n bytes []) :
    ∃ t, stepWord (Stimulus.grant n).word s = .next t ∧ (t.echoOf n).st = .echoLf ∧ t.EchoInRange n ∧
      t.txLog.get n = s.txLog.get n ++ [termByte] := by
  have hstep := stepWord_grant_cr h.inv.range h.st h.atEnd_nil
  refine ⟨_, hstep, ?_, (stepWord_echoInv hstep h.inv).range, ?_⟩
  · rw [transmitting_echoOf]
  · rw [transmitting_txLog, if_pos rfl]

theorem runWords_grantWords_succ {t : State} (h : stepWord (Stimulus.grant n).word s = .next t) (k : Nat) :
    runWords (grantWords n (k + 1)) s = runWords (grantWords n k) t :=
  runWords_cons_next h

/-- The rest of the line and the suffix take one grant each, and the last of them empties the engine (R140). -/
theorem State.Sending.run (h : s.Sending n bytes rest) :
    ∃ t, runWords (grantWords n (rest.length + 2)) s = some t ∧
      t.txLog.get n = s.txLog.get n ++ rest ++ [0x0D, 0x0A] ∧ (t.echoOf n).st = .idle ∧ (t.echoOf n).len = 0 := by
  induction rest generalizing s with
  | nil =>
    obtain ⟨u, hcr, hst, hr, hlog⟩ := h.grant_cr
    have hlf := stepWord_grant_lf hr hst
    refine ⟨_, (runWords_grantWords_succ hcr 1).trans (runWords_grantWords_succ hlf 0), ?_, ?_, ?_⟩
    · rw [transmitting_txLog, if_pos rfl, hlog]
      simp [termByte, lfByte]
    · rw [transmitting_echoOf]
    · rw [transmitting_echoOf]
  | cons b rest ih =>
    obtain ⟨u, hdata, hsending, hlog⟩ := h.grant_data
    obtain ⟨t, hrun, htx, hst, hlen⟩ := ih hsending
    refine ⟨t, (runWords_grantWords_succ hdata _).trans hrun, ?_, hst, hlen⟩
    rw [htx, hlog]
    simp

/-- Until the last of these grants the engine is busy. -/
theorem State.Sending.busy_before (h : s.Sending n bytes rest) (j : Nat) (hj : j < rest.length + 2) :
    ∃ t, runWords (grantWords n j) s = some t ∧ t.Busy n := by
  induction j generalizing s rest with
  | zero => exact ⟨s, rfl, by simp [h.st]⟩
  | succ j ih =>
    cases rest with
    | nil =>
      obtain ⟨u, hcr, hst, -, -⟩ := h.grant_cr
      obtain rfl : j = 0 := by simpa using hj
      exact ⟨u, runWords_grantWords_succ hcr 0, by simp [hst]⟩
    | cons b rest =>
      obtain ⟨u, hdata, hsending, -⟩ := h.grant_data
      obtain ⟨t, hrun, hbusy⟩ := ih hsending (by simpa using hj)
      exact ⟨t, (runWords_grantWords_succ hdata j).trans hrun, hbusy⟩

/-- RX_TERM leaves the whole part to send (R132). -/
theorem sending_of_rxTerm {t : State} (hinv : s.EchoInv n) (hline : s.HoldsLine n bytes)
    (h : exec (.rxTerm n) s = .next t) : t.Sending n bytes (echoedPart s.cfg bytes) := by
  have hinv' := exec_echoInv h hinv
  obtain rfl := exec_rxTerm_next h
  obtain ⟨hlen, hread⟩ := hline
  exact
    { inv := hinv'
      st := by rw [receiving_echoOf]
      holds := by
        unfold State.HoldsLine
        rw [receiving_echoOf]
        refine ⟨hlen, fun i hi => ?_⟩
        rw [Memory.read_write_other _ (by omega)]
        exact hread i hi
      idx_le := by rw [receiving_echoOf]; exact Nat.zero_le _
      left := by rw [receiving_echoOf]; rfl }

end

/-! ## Receiving -/

/-- Keeping the first `m` of a list before more is appended makes no difference to the first `m` of the whole. -/
theorem take_take_append {α : Type} (m : Nat) (x y : List α) : (x.take m ++ y).take m = (x ++ y).take m := by
  rw [List.take_append, List.take_append, List.take_take, Nat.min_self, List.length_take]
  congr 2
  omega

/-- What receiving `bytes` does to an idle engine: `len` rises to at most `C - 1`, and a line held before goes on with
as many of the bytes as fit. -/
structure Received (n : Link) (bytes : List Byte) (s t : State) : Prop where
  range : t.EchoInRange n
  idle : (t.echoOf n).st = .idle
  cfg : t.cfg = s.cfg
  txLog : t.txLog = s.txLog
  len : (t.echoOf n).len = min ((s.echoOf n).len + bytes.length) (s.cfg.capacity - 1)
  line : ∀ held, s.HoldsLine n held → t.HoldsLine n ((held ++ bytes).take (s.cfg.capacity - 1))

section

variable {s : State} {n : Link} (hr : s.EchoInRange n) (hst : (s.echoOf n).st = .idle)
include hr hst

theorem received_nil : Received n [] s s := by
  have ⟨_, hlt, _⟩ := hr
  refine ⟨hr, hst, rfl, rfl, ?_, fun held hheld => ?_⟩
  · simp only [List.length_nil]
    omega
  · have ⟨hlen, _⟩ := hheld
    rw [List.append_nil, List.take_of_length_le (by omega)]
    exact hheld

/-- A full engine takes the byte and drops it (R134). -/
theorem received_drop (b : Byte) (hfull : s.Full n) : Received n [b] s (s.consume n b) := by
  refine ⟨hr, hst, rfl, rfl, ?_, fun held hheld => ?_⟩
  · simp only [State.consume_echoOf, List.length_singleton]
    omega
  · have ⟨hlen, _⟩ := hheld
    rw [List.take_append_of_le_length (by omega), List.take_of_length_le (by omega)]
    exact hheld

/-- An engine with room stores the byte (R133). -/
theorem received_append (b : Byte) (hroom : ¬ s.Full n) :
    Received n [b] s (receiving s n b
      { s.echoOf n with
        len := (s.echoOf n).len + 1
        buf := (s.echoOf n).buf.write (s.echoOf n).len b }) := by
  obtain ⟨hused, hlt, hidx⟩ := hr
  have hlt' : (s.echoOf n).len + 1 < s.cfg.capacity := by omega
  refine ⟨?_, ?_, rfl, rfl, ?_, fun held hheld => ?_⟩
  · unfold State.EchoInRange
    rw [receiving_echoOf]
    exact ⟨hused, hlt', hidx⟩
  · rw [receiving_echoOf]
    exact hst
  · rw [receiving_echoOf]
    show (s.echoOf n).len + 1 = min ((s.echoOf n).len + 1) (s.cfg.capacity - 1)
    omega
  · obtain ⟨hlen, hread⟩ := hheld
    unfold State.HoldsLine
    rw [receiving_echoOf, List.take_of_length_le (by simp; omega)]
    refine ⟨by simp [hlen], fun i hi => ?_⟩
    obtain hi' | rfl : i < held.length ∨ i = held.length := by
      rw [List.length_append, List.length_singleton] at hi
      omega
    · rw [Memory.read_write_other _ (by omega), List.getElem?_append_left hi']
      exact hread i hi'
    · rw [hlen, Memory.read_write_same]
      simp

theorem stepWord_rx_data {b : Byte} (hb : b ≠ termByte) :
    ∃ t, stepWord (Stimulus.rx n b).word s = .next t ∧ Received n [b] s t := by
  by_cases hfull : s.Full n
  · exact ⟨_, stepWord_next_of_select (select_rx_full hr hst hb hfull) rfl, received_drop hr hst b hfull⟩
  · exact ⟨_, stepWord_next_of_select (select_rx_room hr hst hb hfull) (effectOf_rxAppend hr b),
      received_append hr hst b hfull⟩

end

theorem Received.cons {n : Link} {b : Byte} {bytes : List Byte} {s u t : State} (hfirst : Received n [b] s u)
    (hrest : Received n bytes u t) : Received n (b :: bytes) s t where
  range := hrest.range
  idle := hrest.idle
  cfg := hrest.cfg.trans hfirst.cfg
  txLog := hrest.txLog.trans hfirst.txLog
  len := by
    rw [hrest.len, hfirst.len, hfirst.cfg]
    simp only [List.length_cons, List.length_nil]
    omega
  line held hheld := by
    have hline := hrest.line _ (hfirst.line held hheld)
    rwa [hfirst.cfg, take_take_append, List.append_assoc, List.singleton_append] at hline

/-- Without a terminator an idle engine takes every byte. -/
theorem runWords_receiveWords {n : Link} (bytes : List Byte) {s : State} (hr : s.EchoInRange n)
    (hst : (s.echoOf n).st = .idle) (hterm : (0x0D : Byte) ∉ bytes) :
    ∃ t, runWords (receiveWords n bytes) s = some t ∧ Received n bytes s t := by
  induction bytes generalizing s with
  | nil => exact ⟨s, rfl, received_nil hr hst⟩
  | cons b bytes ih =>
    obtain ⟨hb, hbytes⟩ := not_or.mp (mt List.mem_cons.mpr hterm)
    obtain ⟨u, hstep, hfirst⟩ := stepWord_rx_data hr hst (b := b) (Ne.symm hb)
    obtain ⟨t, hrun, hrest⟩ := ih hfirst.range hfirst.idle hbytes
    exact ⟨t, (runWords_cons_next hstep).trans hrun, hfirst.cons hrest⟩

/-! ## A whole line -/

theorem runWords_echoInv {n : Link} (ws : List Word) {s t : State} (h : runWords ws s = some t)
    (hinv : s.EchoInv n) : t.EchoInv n := by
  induction ws generalizing s with
  | nil =>
    obtain rfl : s = t := Option.some.inj h
    exact hinv
  | cons w ws ih =>
    obtain ⟨u, hstep, hrest⟩ := runWords_cons.mp h
    exact ih hrest (stepWord_echoInv hstep hinv)

/-- A line received by an empty engine comes back as far as it fits, when no NUL stops its echo (R143, R144). -/
theorem echo_of_received_line {s : State} {n : Link} {bytes : List Byte} (hinv : s.EchoInv n)
    (hst : (s.echoOf n).st = .idle) (hempty : (s.echoOf n).len = 0) (hterm : (0x0D : Byte) ∉ bytes)
    (hnul : s.cfg.echoNulStop = true → (0x00 : Byte) ∉ bytes) :
    ∃ t, runWords (receiveWords n bytes ++ (Stimulus.rx n 0x0D).word ::
        grantWords n ((bytes.take (s.cfg.capacity - 1)).length + 2)) s = some t ∧
      t.txLog.get n = s.txLog.get n ++ bytes.take (s.cfg.capacity - 1) ++ [0x0D, 0x0A] ∧
      (t.echoOf n).st = .idle ∧ (t.echoOf n).len = 0 := by
  obtain ⟨u, hreceive, hreceived⟩ := runWords_receiveWords bytes hinv.range hst hterm
  have hline : u.HoldsLine n (bytes.take (s.cfg.capacity - 1)) := hreceived.line [] ⟨hempty, by simp⟩
  have hselect := select_rx_term hreceived.range hreceived.idle
  have heffect := effectOf_rxTerm hreceived.range
  have hsending :=
    sending_of_rxTerm (runWords_echoInv _ hreceive hinv) hline (decodeIn_exec_of_select hselect heffect).2
  rw [hreceived.cfg, echoedPart_of_no_nul fun hstop hmem => hnul hstop (List.mem_of_mem_take hmem)] at hsending
  obtain ⟨t, hgrants, htx, hidle, hlen⟩ := hsending.run
  refine ⟨t, ?_, ?_, hidle, hlen⟩
  · rw [runWords_append, hreceive, Option.bind_some]
    exact (runWords_cons_next (stepWord_next_of_select hselect heffect)).trans hgrants
  · rw [htx, State.setEcho_txLog, State.consume_txLog, hreceived.txLog]

end Sys2Proof.Machine

namespace Sys2Proof

open Machine

/-- Settles O24: RX_TERM leaves the whole part to send, and each grant sends its next byte or one of the suffix. -/
theorem echoTakesTwoGrantsMoreThanItsBytes : Obligations.EchoTakesTwoGrantsMoreThanItsBytes := by
  intro s s' n bytes hinv hline h
  have hsending := sending_of_rxTerm hinv hline h
  obtain ⟨t, hrun, htx, hst, hlen⟩ := hsending.run
  have hlog : s'.txLog = s.txLog := by rw [exec_rxTerm_next h]; rfl
  rw [hlog] at htx
  exact ⟨⟨t, hrun, htx, hst, hlen⟩, hsending.busy_before⟩

/-- Settles O25: a line of at most `C - 1` bytes fits whole. -/
theorem shortLineIsEchoedVerbatim : Obligations.ShortLineIsEchoedVerbatim := by
  intro s n bytes hinv hst hempty hterm hnul hshort
  have h := echo_of_received_line hinv hst hempty hterm hnul
  rwa [List.take_of_length_le hshort] at h

/-- Settles O26: of a longer one `C - 1` bytes fit, and their echo takes `C + 1` grants. -/
theorem longLineIsEchoedTruncated : Obligations.LongLineIsEchoedTruncated := by
  intro s n bytes hinv hst hempty hterm hnul hlong
  have h := echo_of_received_line hinv hst hempty hterm hnul
  obtain ⟨-, hcapacity, -⟩ := hinv.range
  have hslots : (bytes.take (s.cfg.capacity - 1)).length + 2 = s.cfg.capacity + 1 := by
    rw [List.length_take_of_le hlong]
    omega
  rwa [hslots] at h

/-- Settles O27: each byte but a terminator leaves the engine idle and `TXLOG` as it was. -/
theorem unterminatedInputIsNeverFlushed : Obligations.UnterminatedInputIsNeverFlushed := by
  intro s n bytes hr hst hterm
  obtain ⟨t, hrun, hreceived⟩ := runWords_receiveWords bytes hr hst hterm
  exact ⟨t, hrun, hreceived.idle, hreceived.len, hreceived.txLog⟩

end Sys2Proof

/-!
Links do not interfere (spec/40_line_echo.md R141): engine `n` and `TXLOG[n]` are a function of the words that act on
link `n`, because an operation of another link, of a periodic engine or of the host leaves both alone, and an operation
of link `n` reads nothing else.
-/

namespace Sys2Proof.Machine

/-- Two states that agree on the configuration and on all of the block that belongs to link `n`. -/
structure State.AlikeOn (n : Link) (s s' : State) : Prop where
  cfg : s'.cfg = s.cfg
  echo : s'.echoOf n = s.echoOf n
  txLog : s'.txLog.get n = s.txLog.get n

theorem State.AlikeOn.refl (n : Link) (s : State) : State.AlikeOn n s s := ⟨rfl, rfl, rfl⟩

theorem State.AlikeOn.symm {n : Link} {s s' : State} (h : State.AlikeOn n s s') : State.AlikeOn n s' s :=
  ⟨h.cfg.symm, h.echo.symm, h.txLog.symm⟩

theorem State.AlikeOn.trans {n : Link} {s s' s'' : State} (h : State.AlikeOn n s s') (h' : State.AlikeOn n s' s'') :
    State.AlikeOn n s s'' :=
  ⟨h'.cfg.trans h.cfg, h'.echo.trans h.echo, h'.txLog.trans h.txLog⟩

/-- The word of operation `i` acts on link `n`. -/
theorem touchesLink_encode (n : Link) (i : Instr) :
    touchesLink n (encode i) = true ↔
      i = .reset ∨ i = .rxTerm n ∨ (∃ b, i = .rxAppend n b ∨ i = .rxDrop n b) ∨ i = .grantData n ∨ i = .grantCr n ∨
        i = .grantLf n ∨ i = .grantIdle n := by
  unfold touchesLink encode
  rw [decodeWord_word]
  cases i <;> simp [Instr.stimulus]

/-- An operation whose word does not act on link `n` leaves the link's part of the block alone. -/
theorem exec_alikeOn {n : Link} {i : Instr} {s t : State} (h : exec i s = .next t)
    (hi : touchesLink n (encode i) = false) : State.AlikeOn n s t := by
  have hother := mt (touchesLink_encode n i).mpr (by simp [hi])
  refine ⟨exec_cfg h, ?_, ?_⟩
  · rcases exec_echo_cases h n with heq | hown
    · exact heq
    · exact absurd (by tauto) hother
  · rcases exec_txLog_cases h n with ⟨hown, -⟩ | ⟨-, heq⟩
    · exact absurd (by tauto) hother
    · exact heq

section

variable {n : Link} {s s' : State} (h : State.AlikeOn n s s')
include h

theorem State.AlikeOn.echoInRange (hr : s.EchoInRange n) : s'.EchoInRange n := by
  unfold State.EchoInRange
  rw [h.cfg, h.echo]
  exact hr

theorem State.AlikeOn.atEnd : s'.atEnd n = s.atEnd n := by
  unfold State.atEnd State.memRead
  rw [h.cfg, h.echo]

theorem State.AlikeOn.receiving (b : Byte) (e : Echo) :
    State.AlikeOn n (receiving s n b e) (receiving s' n b e) :=
  ⟨h.cfg, by rw [receiving_echoOf, receiving_echoOf], h.txLog⟩

theorem State.AlikeOn.transmitting (b : Byte) (e : Echo) :
    State.AlikeOn n (transmitting s n b e) (transmitting s' n b e) := by
  refine ⟨h.cfg, by rw [transmitting_echoOf, transmitting_echoOf], ?_⟩
  rw [transmitting_txLog, transmitting_txLog, if_pos rfl, if_pos rfl, h.txLog]

/-- An operation of link `n` is selected where its engine and the configuration are the same. -/
theorem State.AlikeOn.select {i : Instr} (hi : touchesLink n (encode i) = true) (hwf : i.WellFormed)
    (hc : i.Condition s) (hr : i.EnginesInRange s) : select i.stimulus s' = .op i := by
  have hr' : s.EchoInRange n → s'.EchoInRange n := h.echoInRange
  obtain rfl | rfl | ⟨b, rfl | rfl⟩ | rfl | rfl | rfl | rfl := (touchesLink_encode n i).mp hi
  · rfl
  all_goals
    refine select_of_condition hwf (hr' hr) ?_
    simp only [Instr.Condition, h.echo, h.cfg, h.atEnd]
    exact hc

/-- An operation of link `n` does the same to alike states. -/
theorem State.AlikeOn.exec {i : Instr} {t : State} (hi : touchesLink n (encode i) = true)
    (hexec : exec i s = .next t) : ∃ t', exec i s' = .next t' ∧ State.AlikeOn n t t' := by
  obtain ⟨hwf, hc, hr, he⟩ := exec_next_cases hexec
  have hselect := h.select hi hwf hc hr
  suffices ∃ t', effectOf s' i = .ok t' ∧ State.AlikeOn n t t' from
    let ⟨t', heffect, halike⟩ := this
    ⟨t', exec_next.mpr ⟨hselect, heffect⟩, halike⟩
  obtain rfl | rfl | ⟨b, rfl | rfl⟩ | rfl | rfl | rfl | rfl := (touchesLink_encode n i).mp hi
  · cases he
    refine ⟨_, rfl, h.cfg, ?_, h.txLog⟩
    rw [resetBlock_echoOf_eq_atReset, resetBlock_echoOf_eq_atReset]
  · obtain rfl := exec_rxTerm_next hexec
    refine ⟨_, effectOf_rxTerm (h.echoInRange hr), ?_⟩
    rw [h.echo]
    exact h.receiving termByte _
  · obtain rfl := exec_rxAppend_next hexec
    refine ⟨_, effectOf_rxAppend (h.echoInRange hr) b, ?_⟩
    rw [h.echo]
    exact h.receiving b _
  · obtain rfl := exec_rxDrop_next hexec
    exact ⟨_, rfl, h.cfg, h.echo, h.txLog⟩
  · obtain ⟨b, hread, hidx, rfl⟩ := sendDataByte_ok.mp he
    refine ⟨_, sendDataByte_ok.mpr ⟨b, by rw [h.echo, hread], by rw [h.echo, h.cfg]; exact hidx, rfl⟩, ?_⟩
    rw [h.echo]
    exact h.transmitting b _
  · obtain rfl := exec_grantCr_next hexec
    refine ⟨_, rfl, ?_⟩
    rw [sendCr, h.echo]
    exact h.transmitting termByte _
  · obtain rfl := exec_grantLf_next hexec
    refine ⟨_, rfl, ?_⟩
    rw [sendLf, h.echo]
    exact h.transmitting lfByte _
  · obtain rfl := exec_grantIdle_next hexec
    exact ⟨_, rfl, h⟩

end

/-- A run and the run of its words that act on link `n` stay alike on the link. -/
theorem runWords_filter_alikeOn {n : Link} (ws : List Word) {s s' t : State} (h : State.AlikeOn n s s')
    (hrun : runWords ws s = some t) :
    ∃ t', runWords (ws.filter (touchesLink n)) s' = some t' ∧ State.AlikeOn n t t' := by
  induction ws generalizing s s' with
  | nil =>
    obtain rfl : s = t := Option.some.inj hrun
    exact ⟨s', rfl, h⟩
  | cons w ws ih =>
    obtain ⟨u, hstep, hrest⟩ := runWords_cons.mp hrun
    obtain ⟨i, hdecode, hexec⟩ := exec_of_stepWord hstep
    obtain ⟨rfl, -, -⟩ := decodedOperationEncodesToItsWord w s i hdecode
    cases hi : touchesLink n (encode i) with
    | true =>
      obtain ⟨u', hexec', halike⟩ := h.exec hi hexec
      obtain ⟨t', hrun', halike'⟩ := ih halike hrest
      refine ⟨t', ?_, halike'⟩
      rw [List.filter_cons_of_pos hi]
      obtain ⟨hselect, heffect⟩ := exec_next.mp hexec'
      exact (runWords_cons_next (stepWord_next_of_select hselect heffect)).trans hrun'
    | false =>
      rw [List.filter_cons_of_neg (by simp [hi])]
      exact ih ((exec_alikeOn hexec hi).symm.trans h) hrest

end Sys2Proof.Machine

namespace Sys2Proof

open Machine

/-- Settles O28: the whole run and the filtered one start in the same state and stay alike on the link. -/
theorem linksAreIndependent : Obligations.LinksAreIndependent := by
  intro n ws s t hrun
  obtain ⟨t', hrun', halike⟩ := runWords_filter_alikeOn ws (.refl n s) hrun
  exact ⟨t', hrun', halike.echo, halike.txLog⟩

end Sys2Proof

/-!
Counting and services over whole runs (spec/41_periodic.md section 3): the two counters as one position in a cycle of
`P*T` clock cycles, and the output as the parity of the services.
-/

namespace Sys2Proof.Machine

/-! ## The position in the cycle -/

/-- How many of the `P*T` clock cycles up to the next expiry have passed. -/
def Periodic.position (d : Divisor) (p : Periodic) : Nat := p.pre + d.p * p.cnt

/-- Below its bound the tick counter leaves room for one more turn of the prescaler. -/
theorem Periodic.turn_le {d : Divisor} {p : Periodic} (hcnt : p.cnt < d.t) : d.p * p.cnt + d.p ≤ d.p * d.t :=
  calc
    d.p * p.cnt + d.p = d.p * (p.cnt + 1) := (Nat.mul_succ _ _).symm
    _ ≤ d.p * d.t := Nat.mul_le_mul_left _ hcnt

section

variable {d : Divisor} {p : Periodic} (hpre : p.pre < d.p) (hcnt : p.cnt < d.t)
include hpre hcnt

theorem Periodic.position_lt : p.position d < d.p * d.t := by
  have hturn := Periodic.turn_le hcnt
  unfold Periodic.position
  omega

/-- The last position is that of the next cycle's expiry (R174). -/
theorem Periodic.expiry_iff_position : p.pre = d.p - 1 ∧ p.cnt = d.t - 1 ↔ p.position d + 1 = d.p * d.t := by
  unfold Periodic.position
  constructor
  · rintro ⟨hp, ht⟩
    have htotal : d.p * d.t = d.p * p.cnt + d.p := by
      rw [← Nat.mul_succ, ht, Nat.succ_eq_add_one, Nat.sub_add_cancel (by omega)]
    omega
  · intro heq
    have hturn := Periodic.turn_le hcnt
    have hlast : ¬ p.cnt + 1 < d.t := fun hlt => by
      have hnext : d.p * (p.cnt + 1) + d.p ≤ d.p * d.t := by
        rw [← Nat.mul_succ]
        exact Nat.mul_le_mul_left _ hlt
      rw [Nat.mul_succ] at hnext
      omega
    omega

/-- A clock cycle goes on to the next position. -/
theorem Periodic.clock_position : (p.clock d).position d = (p.position d + 1) % (d.p * d.t) := by
  by_cases hexp : p.pre = d.p - 1 ∧ p.cnt = d.t - 1
  · rw [(Periodic.expiry_iff_position hpre hcnt).mp hexp, Nat.mod_self,
      Periodic.clock_of_expiry hexp.1 hexp.2]
    rfl
  · have hlt : p.position d + 1 < d.p * d.t :=
      lt_of_le_of_ne (Periodic.position_lt hpre hcnt)
        (mt (Periodic.expiry_iff_position hpre hcnt).mpr hexp)
    rw [Nat.mod_eq_of_lt hlt]
    unfold Periodic.position Periodic.clock
    by_cases hp : p.pre = d.p - 1
    · have ht : p.cnt ≠ d.t - 1 := fun ht => hexp ⟨hp, ht⟩
      rw [if_pos hp, if_neg ht]
      simp only [Nat.mul_succ]
      omega
    · rw [if_neg hp]
      simp only
      omega

/-- A clock cycle leaves the tick pending when it was, or when the cycle is an expiry (R175). -/
theorem Periodic.clock_pend : (p.clock d).pend = (p.pend || decide (p.position d + 1 = d.p * d.t)) := by
  by_cases hexp : p.pre = d.p - 1 ∧ p.cnt = d.t - 1
  · rw [Periodic.clock_of_expiry hexp.1 hexp.2, decide_eq_true ((Periodic.expiry_iff_position hpre hcnt).mp hexp),
      Bool.or_true]
  · rw [decide_eq_false (mt (Periodic.expiry_iff_position hpre hcnt).mpr hexp), Bool.or_false]
    unfold Periodic.clock
    split
    · next hp => rw [if_neg fun ht => hexp ⟨hp, ht⟩]
    · rfl

end

/-- A periodic engine `k` clock cycles after its reset. -/
structure Periodic.Clocked (d : Divisor) (k : Nat) (p : Periodic) : Prop where
  pre : p.pre < d.p
  cnt : p.cnt < d.t
  position : p.position d = k % (d.p * d.t)
  pend : p.pend = decide (d.p * d.t ≤ k)

theorem Periodic.Clocked.atReset {d : Divisor} (hp : 1 ≤ d.p) (ht : 1 ≤ d.t) (inactive : Bool) :
    Periodic.Clocked d 0 (Periodic.atReset inactive) where
  pre := hp
  cnt := ht
  position := rfl
  pend := (decide_eq_false (Nat.not_le.mpr (Nat.mul_pos hp ht))).symm

theorem Periodic.Clocked.clock {d : Divisor} {k : Nat} {p : Periodic} (h : p.Clocked d k) :
    (p.clock d).Clocked d (k + 1) where
  pre := (Periodic.clock_range h.pre h.cnt).1
  cnt := (Periodic.clock_range h.pre h.cnt).2
  position := by rw [Periodic.clock_position h.pre h.cnt, h.position, Nat.mod_add_mod]
  pend := by
    rw [Periodic.clock_pend h.pre h.cnt, h.pend, h.position, ← Bool.decide_or, decide_eq_decide]
    constructor
    · rintro (hle | heq)
      · omega
      · have hmod := Nat.mod_le k (d.p * d.t)
        omega
    · intro hle
      obtain hle | heq := Nat.le_or_eq_of_le_succ hle
      · exact .inl hle
      · rw [heq, Nat.mod_eq_of_lt (by omega)]
        exact .inr rfl

/-- The next cycle is an expiry exactly when its number is a multiple of `P*T`. -/
theorem Periodic.Clocked.expiry_iff {d : Divisor} {k : Nat} {p : Periodic} (h : p.Clocked d k) :
    p.pre = d.p - 1 ∧ p.cnt = d.t - 1 ↔ d.p * d.t ∣ k + 1 := by
  have hlt := Periodic.position_lt h.pre h.cnt
  rw [Periodic.expiry_iff_position h.pre h.cnt, Nat.dvd_iff_mod_eq_zero, ← Nat.mod_add_mod, ← h.position]
  constructor
  · intro heq
    rw [heq, Nat.mod_self]
  · intro hzero
    by_contra hne
    rw [Nat.mod_eq_of_lt (by omega)] at hzero
    omega

/-- `k` clock cycles of engines in range. -/
theorem runWords_clockWords_succ {s : State} (h : ∀ u, s.PeriodicInRange u) (k : Nat) :
    runWords (clockWords (k + 1)) s = runWords (clockWords k) (clockBoth s) :=
  runWords_cons_next (stepWord_next_of_select (select_clk (h .a) (h .b)) rfl)

theorem runWords_clockWords_clocked (k : Nat) {s : State} {j : Nat}
    (h : ∀ u, (s.periodicOf u).Clocked (s.divisorOf u) j) :
    ∃ t, runWords (clockWords k) s = some t ∧ t.cfg = s.cfg ∧
      ∀ u, (t.periodicOf u).Clocked (s.divisorOf u) (j + k) := by
  induction k generalizing s j with
  | zero => exact ⟨s, rfl, rfl, h⟩
  | succ k ih =>
    have hclock (u : Engine) : ((clockBoth s).periodicOf u).Clocked (s.divisorOf u) (j + 1) := by
      rw [clockBoth_periodicOf]
      exact (h u).clock
    obtain ⟨t, hrun, hcfg, ht⟩ := ih (s := clockBoth s) hclock
    refine ⟨t, (runWords_clockWords_succ (fun u => ⟨(h u).pre, (h u).cnt⟩) k).trans hrun, hcfg, fun u => ?_⟩
    rw [show j + (k + 1) = j + 1 + k by omega]
    exact ht u

theorem stepWord_reset (s : State) : stepWord Stimulus.reset.word s = .next (resetBlock s) :=
  stepWord_next_of_select (select_resetEvent s) (effectOf_reset s)

theorem ConfigLegal.divisor {c : Config} (h : ConfigLegal c) (u : Engine) :
    1 ≤ (c.divisor.get u).p ∧ 1 ≤ (c.divisor.get u).t := by
  obtain ⟨-, ha, hb⟩ := h
  cases u with
  | a => exact ha
  | b => exact hb

theorem resetBlock_clocked {s : State} (h : ConfigLegal s.cfg) (u : Engine) :
    ((resetBlock s).periodicOf u).Clocked (s.divisorOf u) 0 := by
  obtain ⟨hp, ht⟩ := h.divisor u
  rw [resetBlock_periodicOf_eq_atReset]
  exact .atReset hp ht _

/-! ## Services -/

/-- An operation inverts the output of engine `u` when it is the engine's service, and else keeps it unless it is
RESET. -/
theorem exec_out {i : Instr} {s t : State} (h : exec i s = .next t) (hi : i ≠ .reset) (u : Engine) :
    (t.periodicOf u).out = xor (s.periodicOf u).out (decide (i = tickInstr u)) := by
  have hnext := exec_periodicNext h u
  generalize t.periodicOf u = p at hnext
  cases hnext with
  | reset => exact absurd rfl hi
  | same _ hne => simp [hne]
  | clock => cases u <;> simp [tickInstr]
  | service => simp

theorem xor_odd_add (m k : Nat) : decide ((m + k) % 2 = 1) = xor (decide (m % 2 = 1)) (decide (k % 2 = 1)) := by
  rcases Nat.mod_two_eq_zero_or_one m with hm | hm <;> rcases Nat.mod_two_eq_zero_or_one k with hk | hk <;>
    simp [Nat.add_mod, hm, hk]

/-- Over a run without RESET an output is inverted once for each service. -/
theorem runWords_out (u : Engine) (ws : List Word) {s t : State} (hreset : Stimulus.reset.word ∉ ws)
    (hrun : runWords ws s = some t) :
    (t.periodicOf u).out = xor (s.periodicOf u).out (decide (services u ws s % 2 = 1)) := by
  induction ws generalizing s with
  | nil =>
    obtain rfl : s = t := Option.some.inj hrun
    simp [services]
  | cons w ws ih =>
    obtain ⟨hw, hws⟩ := not_or.mp (mt List.mem_cons.mpr hreset)
    obtain ⟨v, hstep, hrest⟩ := runWords_cons.mp hrun
    obtain ⟨i, hdecode, hexec⟩ := exec_of_stepWord hstep
    have hi : i ≠ .reset := by
      rintro rfl
      exact hw (decodedOperationEncodesToItsWord w s _ hdecode).1
    have hcount : services u (w :: ws) s = (if i = tickInstr u then 1 else 0) + services u ws v := by
      simp only [services, hstep, hdecode, Selection.op.injEq]
    rw [ih hws hrest, exec_out hexec hi, hcount, xor_odd_add, Bool.xor_assoc]
    split <;> simp_all

end Sys2Proof.Machine

namespace Sys2Proof

open Machine

/-- Settles O38: reset puts both engines at position 0 with nothing pending, and each clock cycle goes one position
on. -/
theorem expiriesComeEveryPTimesTClocks : Obligations.ExpiriesComeEveryPTimesTClocks := by
  intro s k hlegal
  obtain ⟨t, hrun, hcfg, hclocked⟩ := runWords_clockWords_clocked k (s := resetBlock s) (resetBlock_clocked hlegal)
  refine ⟨t, (runWords_cons_next (stepWord_reset s)).trans hrun, fun u => ?_⟩
  have hdivisor : t.divisorOf u = s.divisorOf u := congrArg (fun c => c.divisor.get u) hcfg
  have hu : (t.periodicOf u).Clocked (s.divisorOf u) k := by
    rw [← Nat.zero_add k]
    exact hclocked u
  unfold State.Expiring
  rw [hdivisor]
  exact ⟨hu.position, hu.expiry_iff, hu.pend⟩

/-- Settles O39: RESET leaves the inactive level, and from there on each service inverts. -/
theorem outputFollowsTheParityOfServices : Obligations.OutputFollowsTheParityOfServices := by
  intro s s' t u ws hexec hreset hrun
  obtain rfl := exec_reset_next hexec
  rw [runWords_out u ws hreset hrun, resetBlock_periodicOf]

end Sys2Proof

/-!
Building a block (spec/41_periodic.md R171 to R173, spec/70_reset_and_hazards.md R284): what is built is legal, and how
near the derived rate comes to its target. The width of a length (spec/00_scope.md R7).
-/

namespace Sys2Proof.Machine

/-! ## Divisor pairs -/

/-- A settled pair is legal: a given one is tested, and DERIVE's count is at least 1, which no prescaler 0 gives. -/
theorem settleDivisor_legal {c : Config} {u : Engine} {given : Option Divisor} {d : Divisor}
    (h : settleDivisor c u given = .ok d) : 1 ≤ d.p ∧ 1 ≤ d.t := by
  obtain ⟨-, hlegal⟩ | ⟨-, hderive⟩ := settleDivisor_ok.mp h
  · exact hlegal
  · obtain ⟨hfind, ht⟩ := deriveDivisor_eq_some.mp hderive
    obtain ⟨hone, -⟩ := countFits_eq_true.mp (List.find?_some hfind)
    refine ⟨Nat.one_le_iff_ne_zero.mpr fun hzero => ?_, ht ▸ hone⟩
    rw [hzero] at hone
    simp [roundedCount] at hone

/-- The rounded count `T` of a prescaler `P` is within one half of `F / (P*R)`. -/
theorem roundedCount_bounds {f r p : Nat} (hpos : 0 < p * r) :
    2 * (p * r * roundedCount f r p) ≤ 2 * f + p * r ∧ 2 * f < 2 * (p * r * roundedCount f r p) + p * r := by
  have hstep : 0 < 2 * p * r := by rw [Nat.mul_assoc]; omega
  have hlow := Nat.mul_div_le (2 * f + p * r) (2 * p * r)
  have hhigh := Nat.lt_mul_div_succ (2 * f + p * r) hstep
  rw [Nat.mul_succ] at hhigh
  unfold roundedCount
  rw [Nat.mul_assoc 2 p r, Nat.mul_assoc 2 (p * r)] at hlow hhigh
  rw [Nat.mul_assoc 2 p r]
  omega

/-- A distance of `F` from `P*T*R` of at most half of `P*R` is a distance of the rates of at most `R / (2*T)`. -/
theorem rate_distance {f r p t : ℚ} (hp : 0 < p) (ht : 0 < t) (h : 2 * |f - p * t * r| ≤ p * r) :
    |f / (p * t) - r| ≤ r / (2 * t) := by
  have hpt : 0 < p * t := mul_pos hp ht
  have hsplit : f / (p * t) - r = (f - p * t * r) / (p * t) := by field_simp
  rw [hsplit, abs_div, abs_of_pos hpt, div_le_div_iff₀ hpt (by positivity)]
  calc
    |f - p * t * r| * (2 * t) = 2 * |f - p * t * r| * t := by ring
    _ ≤ p * r * t := mul_le_mul_of_nonneg_right h ht.le
    _ = r * (p * t) := by ring

/-! ## The width of a length -/

/-- For two or more bytes `ceil(log2 C)` is one more than the place of the highest bit of `C - 1`. -/
theorem clog_two_eq_log2_pred {c : Nat} (hc : 1 < c) : Nat.clog 2 c = (c - 1).log2 + 1 := by
  have hne : c - 1 ≠ 0 := by omega
  have hlow : 2 ^ (c - 1).log2 ≤ c - 1 := Nat.log2_self_le hne
  have hhigh : c - 1 < 2 ^ ((c - 1).log2 + 1) := Nat.lt_log2_self
  apply le_antisymm
  · exact Nat.clog_le_of_le_pow (by omega)
  · exact (Nat.lt_clog_iff_pow_lt (by decide)).mpr (by omega)

theorem lengthWidth_eq (c : Config) : c.lengthWidth = max 1 (Nat.clog 2 c.capacity) := by
  unfold Config.lengthWidth
  split
  · next hle => rw [Nat.clog_of_right_le_one hle]
  · next hgt => rw [clog_two_eq_log2_pred (not_le.mp hgt)]

theorem capacity_le_two_pow_lengthWidth (c : Config) : c.capacity ≤ 2 ^ c.lengthWidth :=
  calc
    c.capacity ≤ 2 ^ Nat.clog 2 c.capacity := Nat.le_pow_clog (by decide) _
    _ ≤ 2 ^ c.lengthWidth := Nat.pow_le_pow_right (by decide) (lengthWidth_eq c ▸ le_max_right _ _)

end Sys2Proof.Machine

namespace Sys2Proof

open Machine

/-- Settles O42: the configuration built is the one asked for with its settled pairs, and settled pairs are legal. -/
theorem builtBlockIsLegalAndReset : Obligations.BuiltBlockIsLegalAndReset := by
  intro c given
  constructor
  · intro hcapacity hpairs
    have hsettled (u : Engine) : ∃ d, settleDivisor c u (given.get u) = .ok d := by
      obtain ⟨d, hgiven, hlegal⟩ | ⟨hnone, d, hderive⟩ := hpairs u
      · exact ⟨d, settleDivisor_ok.mpr (.inl ⟨hgiven, hlegal⟩)⟩
      · exact ⟨d, settleDivisor_ok.mpr (.inr ⟨hnone, hderive⟩)⟩
    obtain ⟨da, ha⟩ := hsettled .a
    obtain ⟨db, hb⟩ := hsettled .b
    have hds (u : Engine) : settleDivisor c u (given.get u) = .ok (PerEngine.get ⟨da, db⟩ u) := by
      cases u <;> assumption
    exact ⟨_, buildBlock_ok.mpr ⟨_, buildConfig_ok.mpr ⟨hcapacity, ⟨da, db⟩, hds, rfl⟩, rfl⟩⟩
  · intro s hbuilt
    obtain ⟨c', hconfig, rfl⟩ := buildBlock_ok.mp hbuilt
    obtain ⟨hcapacity, ds, hds, rfl⟩ := buildConfig_ok.mp hconfig
    refine ⟨rfl, rfl, hcapacity, fun u => ?_⟩
    have hlegal := settleDivisor_legal (hds u)
    obtain ⟨hgiven, -⟩ | ⟨hnone, hderive⟩ := settleDivisor_ok.mp (hds u)
    · refine ⟨fun d hd => ?_, fun hnone => by simp [hgiven] at hnone⟩
      obtain rfl : ds.get u = d := Option.some.inj (hgiven.symm.trans hd)
      exact ⟨rfl, hlegal⟩
    · exact ⟨fun d hd => by simp [hnone] at hd, fun _ => ⟨hderive, hlegal⟩⟩

/-- Settles O43: rounding moves the count by at most one half, which is half of `P*R` in clock cycles. -/
theorem derivedRateIsWithinHalfAStep : Obligations.DerivedRateIsWithinHalfAStep := by
  intro prescalers tMax f r d hderive
  obtain ⟨hfind, hcount⟩ := deriveDivisor_eq_some.mp hderive
  obtain ⟨hone, -⟩ := countFits_eq_true.mp (List.find?_some hfind)
  have hpr : 0 < d.p * r := by
    rw [Nat.pos_iff_ne_zero]
    intro hzero
    simp [roundedCount, Nat.mul_assoc, hzero] at hone
  obtain ⟨hlow, hhigh⟩ := roundedCount_bounds (f := f) hpr
  rw [← hcount] at hlow hhigh hone
  have hdistance : 2 * |(f : Int) - d.p * d.t * r| ≤ d.p * r := by
    zify at hlow hhigh
    have hsize : |2 * ((f : Int) - d.p * d.t * r)| ≤ d.p * r := abs_le.mpr ⟨by linarith, by linarith⟩
    rwa [abs_mul, abs_two] at hsize
  refine ⟨hdistance, rate_distance ?_ ?_ (by exact_mod_cast hdistance)⟩
  · exact_mod_cast Nat.pos_of_mul_pos_right hpr
  · exact_mod_cast hone

/-- Settles O60: `LW` is the larger of 1 and the logarithm, so `C` and all below it fit. -/
theorem lengthsFitTheirWidth : Obligations.LengthsFitTheirWidth := by
  intro s n hr
  obtain ⟨-, hlen, hidx⟩ := hr
  have hfits := capacity_le_two_pow_lengthWidth s.cfg
  refine ⟨lengthWidth_eq s.cfg, hlen.trans_le hfits, hidx.trans_le hfits, fun hdefault => ?_⟩
  unfold Config.lengthWidth
  rw [hdefault]
  decide

end Sys2Proof

/-!
The environment's side (spec/42_link_host.md): the wires over a run from release, the order in which a link holds and
offers its bytes, and the words of the Status Reflector.
-/

namespace Sys2Proof.Machine

/-! ## Wires (R216) -/

theorem runWords_cfg (ws : List Word) {s t : State} (h : runWords ws s = some t) : t.cfg = s.cfg := by
  induction ws generalizing s with
  | nil => rw [Option.some.inj h]
  | cons w ws ih =>
    obtain ⟨u, hstep, hrest⟩ := runWords_cons.mp h
    exact (ih hrest).trans (stepWord_cfg hstep)

/-- A word sets the havoc mark of a link exactly when it is a HOSTTX on the link. -/
theorem stepWord_wireHavoc {w : Word} {s t : State} (h : stepWord w s = .next t) (n : Link) :
    t.wireHavoc.get n = true ↔ s.wireHavoc.get n = true ∨ ∃ b, w = (Stimulus.hosttx n b).word := by
  obtain ⟨i, hdecode, hexec⟩ := exec_of_stepWord h
  obtain ⟨rfl, -, -⟩ := decodedOperationEncodesToItsWord w s i hdecode
  obtain ⟨m, c, rfl, rfl⟩ | ⟨hother, -, hhavoc⟩ := exec_host_cases hexec
  · by_cases hnm : n = m
    · subst hnm
      simp [encode, Instr.stimulus]
    · simp [encode, Instr.stimulus, hnm, Ne.symm hnm]
  · have hno : ¬ ∃ b, encode i = (Stimulus.hosttx n b).word := by
      rintro ⟨b, hb⟩
      have hstimulus : i.stimulus = .hosttx n b := Stimulus.word_inj.mp hb
      cases i <;> simp_all [Instr.stimulus]
    rw [hhavoc, or_iff_left hno]

theorem runWords_wireHavoc (ws : List Word) {s t : State} (h : runWords ws s = some t) (n : Link) :
    t.wireHavoc.get n = true ↔ s.wireHavoc.get n = true ∨ ∃ b, (Stimulus.hosttx n b).word ∈ ws := by
  induction ws generalizing s with
  | nil =>
    obtain rfl : s = t := Option.some.inj h
    simp
  | cons w ws ih =>
    obtain ⟨u, hstep, hrest⟩ := runWords_cons.mp h
    simp only [ih hrest, stepWord_wireHavoc hstep, List.mem_cons, exists_or, or_assoc, eq_comm]

theorem State.resetWith_wireHavoc (c : Config) (n : Link) :
    (State.resetWith c).wireHavoc.get n = true ↔ n = c.toggleBLink := by
  cases n <;> simp [State.resetWith, PerLink.get, eq_comm]

/-- After a run from release the wire of link `n` is exact but for the sharing with engine B and for HOSTTX. -/
theorem wireClean_iff {c : Config} {ws : List Word} {t : State} (h : runWords ws (State.resetWith c) = some t)
    (n : Link) : t.WireClean n ↔ n ≠ c.toggleBLink ∧ ∀ b, (Stimulus.hosttx n b).word ∉ ws := by
  have hcfg : t.cfg = c := runWords_cfg ws h
  unfold State.WireClean
  rw [← Bool.not_eq_true, runWords_wireHavoc ws h, State.resetWith_wireHavoc, hcfg, not_or, not_exists]
  tauto

/-! ## What a link holds and offers (R211, R212) -/

@[simp] theorem holdByte_rxHold_same (s : State) (n : Link) (b : Byte) :
    (holdByte s n b).env.rxHold.get n = s.env.rxHold.get n ++ [b] :=
  PerLink.get_set_same _ _ _

@[simp] theorem holdByte_rxHold_other (s : State) {n m : Link} (h : m ≠ n) (b : Byte) :
    (holdByte s n b).env.rxHold.get m = s.env.rxHold.get m :=
  PerLink.get_set_other _ h _

/-- Holding is all that a received byte can do to the bytes held; only a busy engine's link can lose it. -/
theorem receiveByte_rxHold (s : State) (n : Link) (b : Byte) :
    (receiveByte s n b).env.rxHold = (holdByte s n b).env.rxHold ∨
      s.Busy n ∧ (receiveByte s n b).env.rxHold = s.env.rxHold := by
  unfold receiveByte
  split
  · next hbusy =>
    split
    · exact .inl rfl
    · exact .inr ⟨hbusy, rfl⟩
  · exact .inl rfl

theorem offersByteOf_eq_true {n : Link} {w : Word} :
    offersByteOf n w = true ↔ ∃ c, w = (Stimulus.rx n c).word := by
  unfold offersByteOf
  cases hd : decodeWord w with
  | error r =>
    refine ⟨fun h => (by cases h), ?_⟩
    rintro ⟨c, rfl⟩
    simp [decodeWord_word] at hd
  | ok st =>
    obtain rfl := decodeWord_ok.mp hd
    cases st <;> simp [eq_comm]

theorem State.rxOffered_eq_false {s : State} {n : Link} :
    s.rxOffered n = false ↔ ∀ c, (Stimulus.rx n c).word ∉ s.script := by
  unfold State.rxOffered
  rw [List.any_eq_false]
  constructor
  · exact fun h c hc => h _ hc (offersByteOf_eq_true.mpr ⟨c, rfl⟩)
  · intro h w hw hoffers
    obtain ⟨c, rfl⟩ := offersByteOf_eq_true.mp hoffers
    exact h c hw

theorem offerHeldByte_env (s : State) (n : Link) : (offerHeldByte s n).env = s.env := by
  unfold offerHeldByte
  split
  · split <;> rfl
  · rfl

theorem offerHeldByte_of_not_ready {s : State} {n : Link} (h : ¬ (s.RxReady n ∧ s.rxOffered n = false)) :
    offerHeldByte s n = s :=
  if_neg h

theorem offerHeldByte_of_held {s : State} {n : Link} {b : Byte} {rest : List Byte} (hready : s.RxReady n)
    (hoffered : s.rxOffered n = false) (hhold : s.env.rxHold.get n = b :: rest) :
    offerHeldByte s n = s.offer [(Stimulus.rx n b).word] := by
  unfold offerHeldByte
  rw [if_pos ⟨hready, hoffered⟩, hhold]

/-- An RX word has a step only at an idle engine, and the engine takes the byte. -/
theorem stepWord_rx_next {s t : State} {n : Link} {b : Byte} (h : stepWord (Stimulus.rx n b).word s = .next t) :
    s.RxReady n ∧ ∃ e, t = receiving s n b e := by
  obtain ⟨i, hdecode, hexec⟩ := exec_of_stepWord h
  rw [decodeIn_word] at hdecode
  obtain ⟨hstimulus, -, hc, -⟩ := select_op hdecode
  cases i <;> cases hstimulus
  case rxTerm => exact ⟨hc, _, exec_rxTerm_next hexec⟩
  case rxAppend => exact ⟨hc.1, _, exec_rxAppend_next hexec⟩
  case rxDrop => exact ⟨hc.1, _, (exec_rxDrop_next hexec).trans (consume_eq_receiving s n b)⟩

/-! ## The host's bytes (R215, R222) -/

theorem stepWord_hosttx (s : State) (n : Link) (b : Byte) :
    stepWord (Stimulus.hosttx n b).word s = .next (s.hostWrite n b) :=
  stepWord_next_of_select (select_hosttx s n b) (effectOf_hosttx s n b)

/-- The words with which the host transmits run in every state, and leave the engines alone. -/
theorem runWords_hostWords (n : Link) (bs : List Byte) (s : State) :
    ∃ t, runWords (hostWords n bs) s = some t ∧ t.hostLog.get n = s.hostLog.get n ++ bs ∧ t.echo = s.echo ∧
      t.periodic = s.periodic := by
  induction bs generalizing s with
  | nil => exact ⟨s, rfl, by simp, rfl, rfl⟩
  | cons b bs ih =>
    obtain ⟨t, hrun, hlog, hecho, hperiodic⟩ := ih (s.hostWrite n b)
    refine ⟨t, (runWords_cons_next (stepWord_hosttx s n b)).trans hrun, ?_, hecho, hperiodic⟩
    rw [hlog, State.hostWrite_hostLog_same, List.append_assoc, List.singleton_append]

end Sys2Proof.Machine

namespace Sys2Proof

open Machine

/-- Settles O45: the run leaves the wire clean exactly on the links the statement calls clean. -/
theorem wireIsExactOnlyInACleanRun : Obligations.WireIsExactOnlyInACleanRun := by
  intro c ws t n hrun
  have hclean := wireClean_iff hrun n
  have hcfg : t.cfg = c := runWords_cfg ws hrun
  unfold State.WireAllows
  rw [hcfg]
  constructor
  · intro hlink hhost bytes
    exact ⟨fun h => h (hclean.mpr ⟨hlink, hhost⟩), fun h _ => h⟩
  · intro hshared bytes h
    obtain ⟨hlink, hhost⟩ := hclean.mp h
    obtain heq | ⟨b, hb⟩ := hshared
    · exact absurd heq hlink
    · exact absurd hb (hhost b)

/-- Settles O47: receiving holds the byte or loses it, offering writes the script alone, and an RX word has a step only
where an idle engine takes its byte. -/
theorem linkKeepsArrivalOrder : Obligations.LinkKeepsArrivalOrder := by
  intro s n b
  have hreceive := receiveByte_rxHold s n b
  refine ⟨fun hidle => ?_, fun _ => ?_, fun m hm => ?_, offerHeldByte_env s n, fun hoffer => ?_, fun rest hhold => ?_⟩
  · obtain hkept | ⟨hbusy, -⟩ := hreceive
    · exact (congrArg (PerLink.get · n) hkept).trans (holdByte_rxHold_same s n b)
    · exact absurd hidle hbusy
  · obtain hkept | ⟨-, hlost⟩ := hreceive
    · exact .inl ((congrArg (PerLink.get · n) hkept).trans (holdByte_rxHold_same s n b))
    · exact .inr (congrArg (PerLink.get · n) hlost)
  · obtain hkept | ⟨-, hlost⟩ := hreceive
    · exact (congrArg (PerLink.get · m) hkept).trans (holdByte_rxHold_other s hm b)
    · exact congrArg (PerLink.get · m) hlost
  · have hready : s.RxReady n ∧ s.rxOffered n = false :=
      by_contra fun hnot => hoffer (congrArg State.script (offerHeldByte_of_not_ready hnot))
    exact ⟨hready.1, State.rxOffered_eq_false.mp hready.2⟩
  · refine ⟨fun hready hnone => ?_, fun hbusy t hstep => hbusy (stepWord_rx_next hstep).1, fun t hstep => ?_⟩
    · exact congrArg State.script (offerHeldByte_of_held hready (State.rxOffered_eq_false.mpr hnone) hhold)
    · obtain ⟨-, e, ht⟩ := stepWord_rx_next hstep
      obtain ⟨-, -, htake, -⟩ := receiving_frame ht
      exact htake rest hhold

/-- Settles O48: with an empty script the words offered are the Reflector's own, and they run as host bytes do. -/
theorem statusReflectorReportsItsInputs : Obligations.StatusReflectorReportsItsInputs := by
  intro s hscript
  have hwords : (envStep .statusReflector s).script = statusWords s := by
    show s.script ++ statusWords s = statusWords s
    rw [hscript, List.nil_append]
  rw [hwords]
  exact ⟨rfl, rfl, runWords_hostWords _ _ s⟩

end Sys2Proof

/-!
Reset and faults (spec/70_reset_and_hazards.md R281, spec/60_exceptions.md R242): what RESET abandons, that the state
after reset meets the invariant, that no step faults from there on, and that an engine out of its ranges does fault.
-/

namespace Sys2Proof.Machine

/-! ## After RESET (R281) -/

theorem resetBlock_echoInRange {s : State} (h : ConfigLegal s.cfg) (n : Link) : (resetBlock s).EchoInRange n := by
  obtain ⟨hcapacity, -, -⟩ := h
  unfold State.EchoInRange
  rw [resetBlock_echoOf_eq_atReset]
  exact ⟨by simp [Echo.atReset], hcapacity, hcapacity⟩

/-- Grants to an idle engine change nothing, however many. -/
theorem runWords_grantWords_idle {s : State} {n : Link} (hr : s.EchoInRange n) (hst : (s.echoOf n).st = .idle)
    (k : Nat) : runWords (grantWords n k) s = some s := by
  induction k with
  | zero => rfl
  | succ k ih => exact (runWords_grantWords_succ (stepWord_grant_idle hr hst) k).trans ih

theorem stepWord_tick_idle {s : State} {u : Engine} (hr : s.PeriodicInRange u) (hp : (s.periodicOf u).pend = false) :
    stepWord (Stimulus.tick u).word s = .next s :=
  stepWord_next_of_select ((select_tick hr).trans (if_neg (by simp [hp]))) rfl

/-- With a legal configuration the state after release meets the invariant. -/
theorem State.resetWith_inv {c : Config} (h : ConfigLegal c) : (State.resetWith c).Inv where
  echo n := by
    obtain ⟨hcapacity, -, -⟩ := h
    have hr : (State.resetWith c).EchoInRange n := by
      unfold State.EchoInRange
      rw [State.resetWith_echoOf]
      exact ⟨by simp [Echo.atReset], hcapacity, hcapacity⟩
    apply State.EchoInv.of_idle hr <;> simp [Echo.atReset, Memory.wf]
  periodic u := by
    unfold State.PeriodicInRange
    rw [State.resetWith_periodicOf]
    exact h.divisor u
  wire n hclean := by
    refine ⟨PerLink.get_all [] n, fun heq => ?_⟩
    rw [(State.resetWith_wireHavoc c n).mpr heq] at hclean
    cases hclean

theorem configLegal_reference : ConfigLegal Config.reference :=
  ⟨by decide, ⟨Nat.succ_pos _, Nat.succ_pos _⟩, ⟨Nat.succ_pos _, Nat.succ_pos _⟩⟩

/-! ## Faults (R242) -/

theorem stepWord_of_select_fault {st : Stimulus} {s : State} {f : Fault} (h : select st s = .fault f) :
    stepWord st.word s = .fault f := by
  simp only [stepWord, decodeIn_word, h]

/-- A grant has a step wherever its engine meets R37. -/
theorem State.EchoInv.stepWord_grant {s : State} {n : Link} (hinv : s.EchoInv n) :
    ∃ t, stepWord (Stimulus.grant n).word s = .next t := by
  by_cases hbusy : s.Busy n
  · obtain ⟨t, hstep, -⟩ := hinv.stepWord_grant_busy hbusy
    exact ⟨t, hstep⟩
  · exact ⟨s, stepWord_grant_idle hinv.range (not_not.mp hbusy)⟩

/-- A tick has a step wherever its engine is in range. -/
theorem stepWord_tick {s : State} {u : Engine} (hr : s.PeriodicInRange u) :
    ∃ t, stepWord (Stimulus.tick u).word s = .next t := by
  cases hp : (s.periodicOf u).pend with
  | true => exact ⟨_, stepWord_next_of_select ((select_tick hr).trans (if_pos hp)) (effectOf_tickInstr s u)⟩
  | false => exact ⟨s, stepWord_tick_idle hr hp⟩

/-- From a state that meets the invariant every event has a step, but RX at a busy engine, which is blocked. -/
theorem State.Inv.stepWord_word {s : State} (hinv : s.Inv) (st : Stimulus) :
    (∃ t, stepWord st.word s = .next t) ∨ ∃ n, stepWord st.word s = .refused (.blocked n) := by
  cases st with
  | reset => exact .inl ⟨_, stepWord_reset s⟩
  | rx n b =>
    have hr := (hinv.echo n).range
    by_cases hbusy : s.Busy n
    · exact .inr ⟨n, stepWord_rx_busy hr hbusy⟩
    · exact .inl (stepWord_rx_idle hr (not_not.mp hbusy) b)
  | grant n => exact .inl (hinv.echo n).stepWord_grant
  | clk => exact .inl ⟨_, stepWord_next_of_select (select_clk (hinv.periodic .a) (hinv.periodic .b)) rfl⟩
  | tick u => exact .inl (stepWord_tick (hinv.periodic u))
  | hosttx n b => exact .inl ⟨_, stepWord_hosttx s n b⟩

theorem State.Inv.stepWord_ne_fault {s : State} (hinv : s.Inv) (w : Word) (f : Fault) :
    stepWord w s ≠ .fault f := by
  cases hd : decodeWord w with
  | error r => simp [(stepWord_of_error hd s).2]
  | ok st =>
    obtain rfl := decodeWord_ok.mp hd
    obtain ⟨t, ht⟩ | ⟨n, hn⟩ := hinv.stepWord_word st
    · simp [ht]
    · simp [hn]

/-- CLK tests both engines, A first (log 7). -/
theorem select_clk_of_out_of_range {s : State} {u : Engine} (h : ¬ s.PeriodicInRange u) :
    ∃ v, ¬ s.PeriodicInRange v ∧ select .clk s = .fault (.periodicOutOfRange v) := by
  by_cases ha : s.PeriodicInRange .a
  · have hb : ¬ s.PeriodicInRange .b := by
      cases u with
      | a => exact absurd ha h
      | b => exact h
    exact ⟨.b, hb, (if_pos ha).trans (if_neg hb)⟩
  · exact ⟨.a, ha, if_neg ha⟩

end Sys2Proof.Machine

namespace Sys2Proof

open Machine

/-- Settles O51: RESET writes the engines alone, and idle engines with nothing pending answer GRANT and TICK with the
state itself. -/
theorem resetAbandonsEchoAndPendingTick : Obligations.ResetAbandonsEchoAndPendingTick := by
  intro s t hlegal hexec
  obtain rfl := exec_reset_next hexec
  refine ⟨rfl, fun n bytes => Iff.rfl, fun n => ?_, fun n k => ?_, fun u => ?_⟩
  · rw [resetBlock_echoOf_eq_atReset]
    exact ⟨rfl, Echo.atReset_read⟩
  · exact runWords_grantWords_idle (resetBlock_echoInRange hlegal n) (by rw [resetBlock_echoOf]) k
  · have hreset := resetBlock_clocked hlegal u
    exact runWords_cons_next (stepWord_tick_idle ⟨hreset.pre, hreset.cnt⟩ (by rw [resetBlock_periodicOf]))

/-- Settles O53: the reference configuration is legal. -/
theorem resetStateMeetsTheInvariant : Obligations.ResetStateMeetsTheInvariant :=
  State.resetWith_inv configLegal_reference

/-- Settles O54: taking the word keeps the invariant, under which every event has a step or is blocked. -/
theorem invariantStateNeverFaults : Obligations.InvariantStateNeverFaults := by
  intro s f hinv h
  obtain ⟨-, hwait⟩ | ⟨w, rest, -, hword⟩ := step_cases h
  · cases hwait
  · exact (hinv.with_script rest).stepWord_ne_fault w f hword

/-- Settles O59: the range test comes first in the selection, so the word faults there. -/
theorem outOfRangeEngineFaults : Obligations.OutOfRangeEngineFaults := by
  intro s n b u
  constructor
  · intro hecho
    exact ⟨stepWord_of_select_fault (if_neg hecho), stepWord_of_select_fault (if_neg hecho)⟩
  · intro hperiodic
    obtain ⟨v, hv, hclk⟩ := select_clk_of_out_of_range hperiodic
    exact ⟨stepWord_of_select_fault (if_neg hperiodic), v, hv, stepWord_of_select_fault hclk⟩

end Sys2Proof
